-- ==== Sys2Proof/Config.lean ====
section
/-!
DEFINITION. The two parameters that 00_scope.md section 3 leaves open to a model.

`MEM_CAP` (R7, D21) and `ALU_OVERFLOW` (R9, D2, U1). Every operation of the machine takes a `Config`;
the values this hardware takes are `Sys2Proof.Machine.hardware` in Machine/Ops.lean, and `exec`, `step`
and `core` use those.
-/

namespace Sys2Proof

/-- What an add, mul or `rb` adjustment does with a result outside I64 (93_implementation_defined.md U1). -/
inductive AluOverflow where
  /-- The result is reduced modulo 2^64 (R9): the value this hardware takes. -/
  | wrap
  /-- The instruction raises ArithmeticOverflow before its commit point (U1's alternative). -/
  | fault
  deriving DecidableEq, Repr

/-- The parameters open to a model (00_scope.md section 3). -/
structure Config where
  /-- `MEM_CAP`, the number of words the memory controller can hold (R7). -/
  memCap : Nat
  /-- `ALU_OVERFLOW` (R9). -/
  aluOverflow : AluOverflow
  deriving DecidableEq, Repr

/-- The values a model may take: 1 <= MEM_CAP <= 2^63 (00_scope.md section 3). -/
abbrev Config.Legal (c : Config) : Prop := 1 ≤ c.memCap ∧ c.memCap ≤ 2 ^ 63

end Sys2Proof
end

