-- ==== Sys2Proof/Word.lean ====
section
/-!
DEFINITION. The word of the Intcode core.

A word is a signed 64-bit integer in two's complement (00_scope.md R4, D1): `BitVec 64`, whose signed
reading `BitVec.toInt` runs over exactly I64. No byte layout exists (20_memory.md R60).
-/

namespace Sys2Proof

/-- A memory word, a raw operand, an ALU operand or result, a FIFO entry (R4); its integer is `w.toInt`
(DESIGN CHOICE, safe: log entry 1). -/
abbrev Word := BitVec 64

end Sys2Proof
end

