-- ==== Sys2Proof/Syntax.lean ====
section
/-!
DEFINITION. Instructions as data: one constructor per row of spec/opcode_table.json (30_encoding.md R83).

An operand keeps the mode digit and the raw operand word. Mode digits 3 to 9 are kept too, because the
fault they raise is found only when the parameter is resolved, after the parameters before it (R85, R114).
-/

namespace Sys2Proof

/-- A mode digit (R84); `illegal d` is the digit `d + 3`, one of 3 to 9 (R85). -/
inductive Mode where
  | position
  | immediate
  | relative
  | illegal (d : Fin 7)
  deriving DecidableEq, Repr

/-- A parameter as it stands in memory: its mode digit and the raw operand word (R80, R89). -/
structure Operand where
  mode : Mode
  raw  : Word
  deriving DecidableEq, Repr

/-- The ten instructions of R83, with the document's parameter names. `inp` is the table's `in`. -/
inductive Instr where
  | add (a b dst : Operand)
  | mul (a b dst : Operand)
  | inp (dst : Operand)
  | out (a : Operand)
  | jt (a target : Operand)
  | jf (a target : Operand)
  | lt (a b dst : Operand)
  | eq (a b dst : Operand)
  | arb (a : Operand)
  | hlt
  deriving DecidableEq, Repr

end Sys2Proof
end

