-- ==== Sys2Proof/Machine/State.lean ====
section
/-!
DEFINITION. The architectural state of 10_state.md R20, the fault causes of 60_exceptions.md R210, the
results of a step (46_host_interface.md R182) and the state at power-up (70_reset_and_hazards.md R251).
-/

namespace Sys2Proof.Machine

/-- The fault causes (60_exceptions.md R210), and U1's alternative cause. A meaning that detects one TAKES it:
the next state has it in the fault latch (R218, R222). No step of this machine ends in the host's outcome
`fault`, so no cause is ever raised to the host that way (DESIGN CHOICE, safe: log entry 2). -/
inductive Fault where
  /-- Raised by `effectiveAddress` (an effective address below 0 or above ADDR_MAX, R111, R211) and by a taken
  jump to a negative target (R152). Safe: D7, D8, D9 err toward more faults. -/
  | invalidAddress
  /-- Raised by `writeAddr`: a destination in immediate mode (R113, R212). Safe: the document's own fault. -/
  | badDestinationMode
  /-- Raised by `step`: the word at `pc` is negative or has an undefined opcode (R82, R92, R172, R213). Safe. -/
  | unknownOpcode
  /-- Raised by `readParam` and `writeAddr`: a mode digit of 3 to 9 (R85, R214). Safe: D11. -/
  | invalidMode
  /-- Raised by `writeAddr`: a destination at or beyond MEM_CAP (R58, R215); never with MEM_CAP = 2^63. Safe: D21. -/
  | capacityExceeded
  /-- Raised by `aluResult`, only in a configuration with ALU_OVERFLOW = fault (U1); never on this hardware.
  Safe: a fault in place of a value. -/
  | arithmeticOverflow
  deriving DecidableEq, Repr

/-- Reasons an instruction has no meaning. Every instruction has one, so none is ever answered. -/
inductive Refusal where
  /-- The instruction of this name has no meaning in `exec` yet. Raised by nothing: every arm has its meaning. Safe. -/
  | notModelled (mnemonic : String)
  deriving DecidableEq, Repr

/-- `mem` and `mem_len` of R20, the document's `memory`. `cells` lists the words that are not 0, by address;
every address not listed holds 0 (20_memory.md R52, R53, U18). Words and not bytes, because R60 knows no byte layout
(DESIGN CHOICE, safe: log entry 1). -/
structure Memory where
  /-- The non-zero words, addresses strictly rising (R25). -/
  cells : List (Nat × Word)
  /-- `mem_len`, the current length of the store (R26). -/
  len : Nat
  deriving DecidableEq, Repr

/-- The canonical form: addresses strictly rising and no listed 0 (DESIGN CHOICE, safe: log entry 1), no word at or
beyond `mem_len` (R25), and `mem_len` at most 2^63 (R26). -/
abbrev Memory.wf (m : Memory) : Prop :=
  m.cells.Pairwise (fun x y => x.1 < y.1) ∧ (∀ c ∈ m.cells, c.2 ≠ 0 ∧ c.1 < m.len) ∧ m.len ≤ 2 ^ 63

/-- The whole architectural state of one core (R20). -/
structure State where
  /-- The program counter, unsigned 64 bits (R22). It never wraps in a reachable state, R6 and R23 (DEDUCED, safe: log
  entry 10). -/
  pc : BitVec 64
  /-- The relative base, signed 64 bits (R24). -/
  rb : Word
  /-- `mem` and `mem_len` (R25, R26). -/
  mem : Memory
  /-- The input queue, head first (R27). -/
  inq : List Word
  /-- The output queue, head first (R28). -/
  outq : List Word
  /-- The fault latch (R29). -/
  fault : Option Fault
  deriving DecidableEq, Repr

/-- The power-up state: that of `load([], [])` (R251, with the values of R250; DEDUCED, unsafe where D19 or D20 is wrong:
log entry 3). -/
def State.reset : State where
  pc := 0
  rb := 0
  mem := ⟨[], 0⟩
  inq := []
  outq := []
  fault := none

/-- What a step returns to the host (46_host_interface.md R180, R182); it is not stored in the state (R20;
DESIGN CHOICE, safe: log entry 2). -/
inductive StepResult where
  | advanced
  | paused
  | halted
  | faulted (cause : Fault)
  deriving DecidableEq, Repr

/-- A step's outcome as the spec gives it: the state after it and the result it returns (R17, R180). -/
structure Reply where
  state : State
  result : StepResult
  deriving DecidableEq, Repr

end Sys2Proof.Machine
end

