-- ==== Sys2Proof/Machine/Ops.lean ====
section
/-!
DEFINITION. The named operations over the state: the constants of 00_scope.md section 3, the memory controller
(20_memory.md R52, R53), the queues, the program counter, and taking a fault (60_exceptions.md R218, R222).

There is no return from a fault: nothing but a new load clears the latch (R219, R223).
-/

namespace Sys2Proof.Machine

/-- The parameters this hardware takes: MEM_CAP = 2^63, ALU_OVERFLOW = wrap (00_scope.md section 3, R7, R9;
DEDUCED, unsafe where D2 or D21 is wrong: log entry 6). -/
def hardware : Config where
  memCap := 2 ^ 63
  aluOverflow := .wrap

/-- `ADDR_MAX`, the largest address (R5, D6). -/
def addrMax : Nat := 2 ^ 63 - 1

/-- `PC_HALT`, the halt sentinel (R171, D5; DEDUCED, unsafe for claims that name the number: log entry 12). -/
def pcHalt : BitVec 64 := BitVec.ofNat 64 (2 ^ 63)

/-! ### Memory -/

/-- The word listed for address `a`, 0 where none is listed. -/
def lookupCell (a : Nat) : List (Nat × Word) → Word
  | [] => 0
  | c :: cs => if c.1 = a then c.2 else lookupCell a cs

/-- Put a cell for address `a`, which no cell of the list has, in its place. -/
def insertCell (a : Nat) (v : Word) : List (Nat × Word) → List (Nat × Word)
  | [] => [(a, v)]
  | c :: cs => if a < c.1 then (a, v) :: c :: cs else c :: insertCell a v cs

/-- `MemRead(a, 1)` (R52): the stored word below `mem_len`, 0 at or above it. -/
def Memory.read (m : Memory) (a : Nat) : Word :=
  if a < m.len then lookupCell a m.cells else 0

/-- The listed words a write at `a` leaves alone: those below the old `mem_len`, at another address (R53). -/
def Memory.others (m : Memory) (a : Nat) : List (Nat × Word) :=
  m.cells.filter (fun c => decide (c.1 ≠ a ∧ c.1 < m.len))

/-- `MemWrite(a, 1, v)` (R53): the store grows with zero fill to hold `a`, then `mem[a]` becomes `v`. Zero fill
leaves nothing listed between the old length and `a`; writing 0 lists nothing at `a`. -/
def Memory.write (m : Memory) (a : Nat) (v : Word) : Memory where
  cells := if v = 0 then m.others a else insertCell a v (m.others a)
  len := max m.len (a + 1)

/-- Write consecutive words from address `a` on. -/
def Memory.writeList (m : Memory) (a : Nat) : List Word → Memory
  | [] => m
  | w :: ws => (m.write a w).writeList (a + 1) ws

/-! ### The other components -/

/-- `pc <- t`. -/
def State.setPc (s : State) (t : BitVec 64) : State := { s with pc := t }

/-- `rb <- v`. -/
def State.setRb (s : State) (v : Word) : State := { s with rb := v }

/-- `mem` and `mem_len` become those of `m`. -/
def State.setMem (s : State) (m : Memory) : State := { s with mem := m }

/-- `inq <- q`. -/
def State.setInq (s : State) (q : List Word) : State := { s with inq := q }

/-- `outq <- q`. -/
def State.setOutq (s : State) (q : List Word) : State := { s with outq := q }

/-- `fault <- f`. -/
def State.setFault (s : State) (f : Option Fault) : State := { s with fault := f }

/-- Move `pc` past an instruction of `n` words (R23). -/
def State.advance (s : State) (n : Nat) : State := s.setPc (s.pc + BitVec.ofNat 64 n)

/-- `MemWrite(a, 1, v)` on the state. -/
def State.store (s : State) (a : Nat) (v : Word) : State := s.setMem (s.mem.write a v)

/-- `push_back(outq, v)` (R141). -/
def State.pushOut (s : State) (v : Word) : State := s.setOutq (s.outq ++ [v])

/-- `push_back(inq, v)` (R183). -/
def State.pushIn (s : State) (v : Word) : State := s.setInq (s.inq ++ [v])

/-! ### Faults and results -/

/-- The one effect of a fault: `fault <- cause`; every other component keeps its value (R14, R218, R222). -/
def takeFault (s : State) (f : Fault) : State := s.setFault (some f)

/-- The step that raises `f` (R14): the latch is set and Faulted(f) returned. -/
def raise (s : State) (f : Fault) : Reply := ⟨takeFault s f, .faulted f⟩

/-- The end of an instruction's body: its reply at the commit point, or the fault it raised before it (R14). -/
def conclude (s : State) : Except Fault Reply → Reply
  | .ok r => r
  | .error f => raise s f

/-- An instruction that commits returns Advanced (R180, R182). -/
def advanced (s : State) : Reply := ⟨s, .advanced⟩

/-- The numeric code of a cause (R210, D23); U1's alternative cause has none there and takes the next one
(DESIGN CHOICE, safe on this hardware: log entry 5). -/
def Fault.code : Fault → Nat
  | .invalidAddress => 1
  | .badDestinationMode => 2
  | .unknownOpcode => 3
  | .invalidMode => 4
  | .capacityExceeded => 5
  | .arithmeticOverflow => 6

/-- The numeric code of a step result (R182, D23). -/
def StepResult.code : StepResult → Nat
  | .advanced => 0
  | .paused => 1
  | .halted => 2
  | .faulted _ => 3

/-- `is_terminated()` (R187): true iff `pc >= mem_len`. -/
def State.terminated (s : State) : Bool := decide (s.mem.len ≤ s.pc.toNat)

end Sys2Proof.Machine
end

