-- ==== Sys2Proof/Machine/Alu.lean ====
section
/-!
DEFINITION. The 64-bit ALU: exact integer results, reduced by `wrap64` (00_scope.md R9, R12; 41_arithmetic.md R132).
-/

namespace Sys2Proof.Machine

/-- `wrap64(z)`: the member of I64 congruent to `z` modulo 2^64 (R12). -/
def wrap64 (z : Int) : Word := BitVec.ofInt 64 z

/-- `z` lies in I64 (R4). -/
abbrev InI64 (z : Int) : Prop := -(2 ^ 63) ≤ z ∧ z < 2 ^ 63

/-- The ALU's result for the exact integer `z` (R9): wrapped, or ArithmeticOverflow outside I64 in a configuration
that takes U1's alternative (DESIGN CHOICE on the check's place, safe on this hardware: log entry 5). -/
def aluResult (c : Config) (z : Int) : Except Fault Word :=
  match c.aluOverflow with
  | .wrap => .ok (wrap64 z)
  | .fault => if InI64 z then .ok (wrap64 z) else .error .arithmeticOverflow

end Sys2Proof.Machine
end

