-- ==== Sys2Proof/Machine/Operands.lean ====
section
/-!
DEFINITION. The operand resolver of 40_operand_resolver.md: EA (R111), ReadParam (R112), WriteAddr (R113). The
raw operand is the one fetched with the instruction (R110). Resolution reads the state and changes nothing (R115).
-/

namespace Sys2Proof.Machine

/-- The exact integer an address is made from (R111): the raw operand, or `rb` plus it in relative mode. -/
def addressInt (s : State) (o : Operand) : Int :=
  match o.mode with
  | .relative => s.rb.toInt + o.raw.toInt
  | .position | .immediate | .illegal _ => o.raw.toInt

/-- `EA(i, m)` for the modes 0 and 2 (R111): InvalidAddress outside 0 to ADDR_MAX, never a wrapped sum. -/
def effectiveAddress (s : State) (o : Operand) : Except Fault Nat :=
  let e := addressInt s o
  if e < 0 ∨ (addrMax : Int) < e then .error .invalidAddress else .ok e.toNat

/-- `ReadParam(i)` (R112). -/
def readParam (s : State) (o : Operand) : Except Fault Word :=
  match o.mode with
  | .illegal _ => .error .invalidMode
  | .immediate => .ok o.raw
  | .position | .relative =>
    match effectiveAddress s o with
    | .ok a => .ok (s.mem.read a)
    | .error f => .error f

/-- `WriteAddr(i)` (R113). -/
def writeAddr (c : Config) (s : State) (o : Operand) : Except Fault Nat :=
  match o.mode with
  | .illegal _ => .error .invalidMode
  | .immediate => .error .badDestinationMode
  | .position | .relative =>
    match effectiveAddress s o with
    | .ok a => if c.memCap ≤ a then .error .capacityExceeded else .ok a
    | .error f => .error f

end Sys2Proof.Machine
end

