-- ==== Sys2Proof/Machine/Arithmetic.lean ====
section
/-!
DEFINITION. The instructions of format F3 share one body (`storeResult`); here are add and mul (41_arithmetic.md
R130, R131).
-/

namespace Sys2Proof.Machine

/-- The body of an instruction `a, b, dst`: resolve the three parameters in index order, compute, then at the commit
point write the result and advance `pc` by 4 (R114, R130). -/
def storeResult (c : Config) (compute : Word → Word → Except Fault Word) (a b dst : Operand) (s : State) : Reply :=
  conclude s do
    let x ← readParam s a
    let y ← readParam s b
    let d ← writeAddr c s dst
    let r ← compute x y
    pure (advanced ((s.store d r).advance 4))

/-- `add a, b, dst` (R130) under any configuration. -/
def addReply (c : Config) (a b dst : Operand) (s : State) : Reply :=
  storeResult c (fun x y => aluResult c (x.toInt + y.toInt)) a b dst s

/-- `mul a, b, dst` (R131) under any configuration. -/
def mulReply (c : Config) (a b dst : Operand) (s : State) : Reply :=
  storeResult c (fun x y => aluResult c (x.toInt * y.toInt)) a b dst s

/-- `add` on this hardware (R130). -/
def execAdd (a b dst : Operand) (s : State) : Host.Outcome State Fault Refusal :=
  .next (addReply hardware a b dst s).state

/-- `mul` on this hardware (R131). -/
def execMul (a b dst : Operand) (s : State) : Host.Outcome State Fault Refusal :=
  .next (mulReply hardware a b dst s).state

end Sys2Proof.Machine
end

