-- ==== Sys2Proof/Machine/Flags.lean ====
section
/-!
DEFINITION. Truth values. The machine has no flags or condition codes (10_state.md R30): a comparison gives a word,
1 or 0 (44_compare.md R162), and a jump tests a word against zero (43_jumps.md R150, R151).
-/

namespace Sys2Proof.Machine

/-- The word a comparison writes: 1 if it holds, 0 otherwise (R160, R161). -/
def truthWord (b : Bool) : Word := if b then 1 else 0

/-- Signed less-than of the integer values (R160); no subtraction, no overflow (R132). -/
def lessThan (a b : Word) : Bool := decide (a.toInt < b.toInt)

/-- Equality of the 64-bit values (R161). -/
def equals (a b : Word) : Bool := decide (a = b)

/-- What a jump tests: the word is not zero (R150). -/
def isTrue (a : Word) : Bool := decide (a ≠ 0)

end Sys2Proof.Machine
end

