-- ==== Sys2Proof/Machine/Compare.lean ====
section
/-!
DEFINITION. The comparisons lt and eq (44_compare.md R160, R161): they write a truth value to memory.
-/

namespace Sys2Proof.Machine

/-- `lt a, b, dst` (R160). -/
def ltReply (c : Config) (a b dst : Operand) (s : State) : Reply :=
  storeResult c (fun x y => .ok (truthWord (lessThan x y))) a b dst s

/-- `eq a, b, dst` (R161). -/
def eqReply (c : Config) (a b dst : Operand) (s : State) : Reply :=
  storeResult c (fun x y => .ok (truthWord (equals x y))) a b dst s

/-- `lt` on this hardware (R160). -/
def execLt (a b dst : Operand) (s : State) : Host.Outcome State Fault Refusal :=
  .next (ltReply hardware a b dst s).state

/-- `eq` on this hardware (R161). -/
def execEq (a b dst : Operand) (s : State) : Host.Outcome State Fault Refusal :=
  .next (eqReply hardware a b dst s).state

end Sys2Proof.Machine
end

