-- ==== Sys2Proof/Machine/InputOutput.lean ====
section
/-!
DEFINITION. The instructions that reach the FIFOs: in and out (42_io.md R140, R141).
-/

namespace Sys2Proof.Machine

/-- `in dst` (R140): the destination is resolved first (D14); on an empty queue the step is Paused and changes
nothing; otherwise the head word is removed, written, and `pc` advances by 2. -/
def inReply (c : Config) (dst : Operand) (s : State) : Reply :=
  conclude s do
    let d ← writeAddr c s dst
    match s.inq with
    | [] => pure ⟨s, .paused⟩
    | v :: rest => pure (advanced (((s.setInq rest).store d v).advance 2))

/-- `out a` (R141): the value goes to the tail of the output queue and `pc` advances by 2. -/
def outReply (a : Operand) (s : State) : Reply :=
  conclude s do
    let x ← readParam s a
    pure (advanced ((s.pushOut x).advance 2))

/-- `in` on this hardware (R140). -/
def execIn (dst : Operand) (s : State) : Host.Outcome State Fault Refusal :=
  .next (inReply hardware dst s).state

/-- `out` on this hardware (R141). -/
def execOut (a : Operand) (s : State) : Host.Outcome State Fault Refusal :=
  .next (outReply a s).state

end Sys2Proof.Machine
end

