-- ==== Sys2Proof/Machine/Jumps.lean ====
section
/-!
DEFINITION. The conditional jumps jt and jf (43_jumps.md R150, R151, R152).
-/

namespace Sys2Proof.Machine

/-- The body of a conditional jump: both parameters are resolved whether or not the jump is taken (R116); a taken jump
to a negative target raises InvalidAddress, an untaken one never looks at the target's sign (R152). -/
def jumpIf (taken : Word → Bool) (a target : Operand) (s : State) : Reply :=
  conclude s do
    let x ← readParam s a
    let t ← readParam s target
    if taken x then
      if t.toInt < 0 then .error .invalidAddress else pure (advanced (s.setPc t))
    else pure (advanced (s.advance 3))

/-- `jt a, target` (R150). -/
def jtReply (a target : Operand) (s : State) : Reply := jumpIf isTrue a target s

/-- `jf a, target` (R151). -/
def jfReply (a target : Operand) (s : State) : Reply := jumpIf (fun x => !isTrue x) a target s

/-- `jt` on this hardware (R150). -/
def execJt (a target : Operand) (s : State) : Host.Outcome State Fault Refusal :=
  .next (jtReply a target s).state

/-- `jf` on this hardware (R151). -/
def execJf (a target : Operand) (s : State) : Host.Outcome State Fault Refusal :=
  .next (jfReply a target s).state

end Sys2Proof.Machine
end

