-- ==== Sys2Proof/Machine/RelBaseHalt.lean ====
section
/-!
DEFINITION. The relative base and halt: arb and hlt (45_relbase_halt.md R170, R171).
-/

namespace Sys2Proof.Machine

/-- `arb a` (R170): `rb` becomes `wrap64(rb + a)` and `pc` advances by 2; the operand is read with the old `rb`. -/
def arbReply (c : Config) (a : Operand) (s : State) : Reply :=
  conclude s do
    let x ← readParam s a
    let r ← aluResult c (s.rb.toInt + x.toInt)
    pure (advanced ((s.setRb r).advance 2))

/-- `hlt` (R171): `pc` becomes PC_HALT and the step returns Halted. -/
def hltReply (s : State) : Reply := ⟨s.setPc pcHalt, .halted⟩

/-- `arb` on this hardware (R170). -/
def execArb (a : Operand) (s : State) : Host.Outcome State Fault Refusal :=
  .next (arbReply hardware a s).state

/-- `hlt` on this hardware (R171). -/
def execHlt (s : State) : Host.Outcome State Fault Refusal :=
  .next (hltReply s).state

end Sys2Proof.Machine
end

