-- ==== Sys2Proof/Machine/Dispatch.lean ====
section
/-!
DEFINITION. The dispatch of 46_host_interface.md R180: one arm per instruction of 30_encoding.md R83.
-/

namespace Sys2Proof.Machine

/-- Execute one instruction (R180): each arm is the rule of its opcode. The latch and termination are tested by `step`
alone (DESIGN CHOICE, safe: log entry 14). -/
def exec (i : Instr) (s : State) : Host.Outcome State Fault Refusal :=
  match i with
  | .add a b dst => Sys2Proof.Machine.execAdd a b dst s
  | .mul a b dst => Sys2Proof.Machine.execMul a b dst s
  | .inp dst => Sys2Proof.Machine.execIn dst s
  | .out a => Sys2Proof.Machine.execOut a s
  | .jt a target => Sys2Proof.Machine.execJt a target s
  | .jf a target => Sys2Proof.Machine.execJf a target s
  | .lt a b dst => Sys2Proof.Machine.execLt a b dst s
  | .eq a b dst => Sys2Proof.Machine.execEq a b dst s
  | .arb a => Sys2Proof.Machine.execArb a s
  | .hlt => Sys2Proof.Machine.execHlt s

end Sys2Proof.Machine
end

