-- ==== Sys2Proof/WellFormed.lean ====
section
/-!
DEFINITION. Which instructions an assembler can write (30_encoding.md R94, R95): every parameter in one of
the three modes (R84, R85), and no destination in immediate mode (R86).

An ill-formed instruction still has a meaning: executing it raises the fault of R85 or R86.
-/

namespace Sys2Proof

/-- A source parameter accepts each of the three modes (R133). -/
def Operand.sourceOk (o : Operand) : Bool :=
  match o.mode with
  | .position | .immediate | .relative => true
  | .illegal _ => false

/-- A destination parameter accepts position and relative mode (R86, R133). -/
def Operand.destOk (o : Operand) : Bool :=
  match o.mode with
  | .position | .relative => true
  | .immediate | .illegal _ => false

/-- Every parameter is in a mode its role accepts (roles: R83). -/
def Instr.wellFormed : Instr → Bool
  | .add a b d => a.sourceOk && b.sourceOk && d.destOk
  | .mul a b d => a.sourceOk && b.sourceOk && d.destOk
  | .inp d => d.destOk
  | .out a => a.sourceOk
  | .jt a t => a.sourceOk && t.sourceOk
  | .jf a t => a.sourceOk && t.sourceOk
  | .lt a b d => a.sourceOk && b.sourceOk && d.destOk
  | .eq a b d => a.sourceOk && b.sourceOk && d.destOk
  | .arb a => a.sourceOk
  | .hlt => true

end Sys2Proof
end

