-- ==== Sys2Proof/Decode.lean ====
section
/-!
DEFINITION. The decoder and the encoder of 30_encoding.md, over decimal digits of the instruction word
(R81, R91, R95), and the host's reading of the opcode table's bit numbering.

The decoder takes the four words at `pc` to `pc + 3`; an instruction uses as many as its opcode says (R80,
R90) and the rest are not part of it. It is total: every four words give an instruction or a named refusal.
-/

namespace Sys2Proof

/-- Why a word at `pc` is no instruction; both raise UnknownOpcode (R82, R92, R172). -/
inductive DecodeError where
  /-- The word is negative (R82). -/
  | negativeWord
  /-- `v mod 100` is this number, outside {1, ..., 9, 99} (R92). -/
  | undefinedOpcode (opcode : Nat)
  deriving DecidableEq, Repr

/-- The mode a decimal digit names (R84, R85). -/
def Mode.ofDigit : Nat → Mode
  | 0 => .position
  | 1 => .immediate
  | 2 => .relative
  | n + 3 => .illegal (Fin.ofNat 7 n)

/-- The decimal digit of a mode. -/
def Mode.digit : Mode → Nat
  | .position => 0
  | .immediate => 1
  | .relative => 2
  | .illegal d => d.val + 3

/-- `opcode = v mod 100` (R81). -/
def opcodeOf (v : Nat) : Nat := v % 100

/-- `mode[i] = (v div 10^(2+i)) mod 10` (R81). -/
def modeOf (v i : Nat) : Mode := Mode.ofDigit (v / 10 ^ (2 + i) % 10)

/-- Decode a non-negative instruction word, with the three words after it (R81, R83, R91). Every other digit is ignored,
R87 and R88 (DEDUCED, unsafe where D12 is wrong: log entry 11). -/
def decodeNat (v : Nat) (r0 r1 r2 : Word) : Except DecodeError Instr :=
  let p0 : Operand := ⟨modeOf v 0, r0⟩
  let p1 : Operand := ⟨modeOf v 1, r1⟩
  let p2 : Operand := ⟨modeOf v 2, r2⟩
  match opcodeOf v with
  | 1 => .ok (.add p0 p1 p2)
  | 2 => .ok (.mul p0 p1 p2)
  | 3 => .ok (.inp p0)
  | 4 => .ok (.out p0)
  | 5 => .ok (.jt p0 p1)
  | 6 => .ok (.jf p0 p1)
  | 7 => .ok (.lt p0 p1 p2)
  | 8 => .ok (.eq p0 p1 p2)
  | 9 => .ok (.arb p0)
  | 99 => .ok .hlt
  | n => .error (.undefinedOpcode n)

/-- The decode procedure of R91: a negative word is rejected first (R82), then the opcode (R92). -/
def decode (v r0 r1 r2 : Word) : Except DecodeError Instr :=
  if v.toInt < 0 then .error .negativeWord else decodeNat v.toInt.toNat r0 r1 r2

/-- Decode the instruction that starts a list of words; a word past the list's end is 0, as past the end of
memory (R57). -/
def decodeWords (ws : List Word) : Except DecodeError Instr :=
  decode (ws.getD 0 0) (ws.getD 1 0) (ws.getD 2 0) (ws.getD 3 0)

/-- The opcode of an instruction (R83). -/
def Instr.opcode : Instr → Nat
  | .add _ _ _ => 1
  | .mul _ _ _ => 2
  | .inp _ => 3
  | .out _ => 4
  | .jt _ _ => 5
  | .jf _ _ => 6
  | .lt _ _ _ => 7
  | .eq _ _ _ => 8
  | .arb _ => 9
  | .hlt => 99

/-- The parameters of an instruction, in index order (R83). -/
def Instr.params : Instr → List Operand
  | .add a b d => [a, b, d]
  | .mul a b d => [a, b, d]
  | .inp d => [d]
  | .out a => [a]
  | .jt a t => [a, t]
  | .jf a t => [a, t]
  | .lt a b d => [a, b, d]
  | .eq a b d => [a, b, d]
  | .arb a => [a]
  | .hlt => []

/-- The length in words, the length column of R83: a function of the opcode alone (R90). -/
def Instr.length : Instr → Nat
  | .add _ _ _ => 4
  | .mul _ _ _ => 4
  | .inp _ => 2
  | .out _ => 2
  | .jt _ _ => 3
  | .jf _ _ => 3
  | .lt _ _ _ => 4
  | .eq _ _ _ => 4
  | .arb _ => 2
  | .hlt => 1

/-- The digit of parameter `i`, 0 for a parameter the opcode does not have (R95). -/
def Instr.modeDigit (i : Instr) (k : Nat) : Nat :=
  match i.params[k]? with
  | some o => o.mode.digit
  | none => 0

/-- `v = opcode + 100*m0 + 1000*m1 + 10000*m2` (R95). -/
def Instr.wordValue (i : Instr) : Nat :=
  i.opcode + 100 * i.modeDigit 0 + 1000 * i.modeDigit 1 + 10000 * i.modeDigit 2

/-- The words of an instruction: the instruction word, then one raw operand per parameter (R80, R95). -/
def encode (i : Instr) : List Word :=
  BitVec.ofNat 64 i.wordValue :: i.params.map Operand.raw

/-- Word `k` of an instruction whose bits are `w`, bit 0 being the least significant bit of the first word
and each word being 64 bits; bits at `nbits` and above are 0 (DESIGN CHOICE, safe: log entry 4). -/
def tableWord (nbits w k : Nat) : Word := BitVec.ofNat 64 (w % 2 ^ nbits / 2 ^ (64 * k))

/-- What the decoder reads from an instruction given in the opcode table's bit numbering. -/
def decodeTableWord (nbits w : Nat) : Option Instr :=
  match decode (tableWord nbits w 0) (tableWord nbits w 1) (tableWord nbits w 2) (tableWord nbits w 3) with
  | .ok i => some i
  | .error _ => none

end Sys2Proof
end

