-- ==== Sys2Proof/Machine/Fetch.lean ====
section
/-!
DEFINITION. Fetch, and what a step does first (46_host_interface.md R180): the fault latch is tested, then
termination, then the word at `pc` is decoded. Also where the host's test words go.
-/

namespace Sys2Proof.Machine

/-- The instruction at `pc`: the word there and the three raw operand words after it, each read as memory is now
(R57, R66, R110; all three are read whatever the opcode, DEDUCED, safe: log entry 7). -/
def fetch (s : State) : Except DecodeError Instr :=
  let p := s.pc.toNat
  decode (s.mem.read p) (s.mem.read (p + 1)) (s.mem.read (p + 2)) (s.mem.read (p + 3))

/-- What a step finds, in the order of R180. -/
inductive Action where
  /-- The fault latch holds this cause. -/
  | latched (f : Fault)
  /-- `pc >= mem_len`. -/
  | terminated
  /-- The word at `pc` is no instruction. -/
  | illegal
  /-- The instruction at `pc`. -/
  | execute (i : Instr)
  deriving DecidableEq, Repr

/-- The tests at the start of a step, in the order of R180 (D18). -/
def nextAction (s : State) : Action :=
  match s.fault with
  | some f => .latched f
  | none =>
    if s.terminated then .terminated
    else
      match fetch s with
      | .ok i => .execute i
      | .error _ => .illegal

/-- Rest states, derived and not stored (10_state.md R31). -/
inductive RestState where
  | faulted (f : Fault)
  | halted
  | ready
  deriving DecidableEq, Repr

/-- The classification of R31: the latch first, then `pc >= mem_len`. -/
def State.restState (s : State) : RestState :=
  match s.fault with
  | some f => .faulted f
  | none => if s.terminated then .halted else .ready

/-- Where a host that places an instruction for the next step puts it: at `pc`, or at 0 after `pc` is set to 0 where the
four words would not all lie in the address space (after `hlt` there is no word at `pc`, R171; DESIGN CHOICE, safe: log
entry 4). -/
def placeAddress (s : State) : Nat := if s.pc.toNat + 3 ≤ addrMax then s.pc.toNat else 0

/-- The state with these words stored where the next step fetches, and the latch clear, as only a load can make it
(R219); everything else as it was (DESIGN CHOICE, safe: log entry 4). -/
def State.placeWords (s : State) (ws : List Word) : State :=
  { s with
    pc := BitVec.ofNat 64 (placeAddress s)
    mem := s.mem.writeList (placeAddress s) ws
    fault := none }

end Sys2Proof.Machine
end

