-- ==== Sys2Proof/Machine/Step.lean ====
section
/-!
DEFINITION. One step (46_host_interface.md R180). A faulted or terminated core changes nothing (R219, R192); a word that is
no instruction raises UnknownOpcode (45_relbase_halt.md R172). The result each step returns is `stepReply` in
Machine/Engine.lean.
-/

namespace Sys2Proof.Machine

/-- `step()` as a change of state (R180). -/
def step (s : State) : Host.Outcome State Fault Refusal :=
  match nextAction s with
  | .latched _ => .next s
  | .terminated => .next s
  | .illegal => .next (takeFault s .unknownOpcode)
  | .execute i => exec i s

/-- The instruction whose bits are `w` in the opcode table's numbering, stored where the next step fetches
(DESIGN CHOICE, safe: log entry 4). -/
def State.withFetchWord (s : State) (nbits w : Nat) : State :=
  s.placeWords [tableWord nbits w 0, tableWord nbits w 1, tableWord nbits w 2, tableWord nbits w 3]

end Sys2Proof.Machine
end

