-- ==== Sys2Proof/Machine/Loader.lean ====
section
/-!
DEFINITION. Load, which is reset (70_reset_and_hazards.md R250), and the program loader that reads an image's text
(R252, R253).
-/

namespace Sys2Proof.Machine

/-- Why a load fails: fatal, reported before any execution, no core is created (R216, R253). The two names are the model's
(DESIGN CHOICE, safe: log entry 9). -/
inductive LoadError where
  /-- A token is not an optional minus sign and decimal digits, or its value is outside I64 (R252). -/
  | malformedToken
  /-- The image is longer than MEM_CAP (R253). -/
  | imageTooLong
  deriving DecidableEq, Repr

/-- `mem` and `mem_len` of a fresh core: word `k` of the image at address `k` (R250). -/
def imageMemory (program : List Word) : Memory := Memory.writeList ⟨[], 0⟩ 0 program

/-- `load(program, inputs)` (R250, R253). -/
def load (c : Config) (program inputs : List Word) : Except LoadError State :=
  if c.memCap < program.length then .error .imageTooLong
  else .ok { pc := 0, rb := 0, mem := imageMemory program, inq := inputs, outq := [], fault := none }

/-- The text split at every comma (R252); a text with no comma is one piece. -/
def splitCommas : List Char → List (List Char)
  | [] => [[]]
  | ch :: rest =>
    if ch = ',' then [] :: splitCommas rest
    else
      match splitCommas rest with
      | [] => [[ch]]
      | t :: ts => (ch :: t) :: ts

/-- A decimal digit's value. -/
def digitValue (ch : Char) : Option Nat :=
  if '0' ≤ ch ∧ ch ≤ '9' then some (ch.toNat - '0'.toNat) else none

/-- The value of a run of decimal digits, with what came before them. -/
def digitsValue : Nat → List Char → Option Nat
  | acc, [] => some acc
  | acc, ch :: rest =>
    match digitValue ch with
    | some d => digitsValue (acc * 10 + d) rest
    | none => none

/-- One or more decimal digits. -/
def natToken : List Char → Option Nat
  | [] => none
  | ds => digitsValue 0 ds

/-- A token's integer: an optional minus sign, then one or more digits (R252, D28). -/
def intToken : List Char → Option Int
  | '-' :: ds =>
    match natToken ds with
    | some n => some (-(n : Int))
    | none => none
  | ds =>
    match natToken ds with
    | some n => some (n : Int)
    | none => none

/-- A token's word: its value must lie in I64 (R252). -/
def wordToken (t : List Char) : Option Word :=
  match intToken t with
  | some z => if -(2 ^ 63) ≤ z ∧ z < 2 ^ 63 then some (BitVec.ofInt 64 z) else none
  | none => none

/-- Every token's word, or none if one is malformed. -/
def wordTokens : List (List Char) → Option (List Word)
  | [] => some []
  | t :: ts =>
    match wordToken t, wordTokens ts with
    | some w, some ws => some (w :: ws)
    | _, _ => none

/-- The image a text gives (R252): line feeds and carriage returns removed, split at commas, one word per token.
The text is a list of characters (DESIGN CHOICE, safe: log entry 8). -/
def parseImage (text : List Char) : Except LoadError (List Word) :=
  match wordTokens (splitCommas (text.filter (fun ch => ch ≠ '\n' ∧ ch ≠ '\r'))) with
  | some ws => .ok ws
  | none => .error .malformedToken

/-- The program loader in front of load (R252, R253). -/
def loadText (c : Config) (text : List Char) (inputs : List Word) : Except LoadError State :=
  match parseImage text with
  | .ok program => load c program inputs
  | .error e => .error e

/-! ### Writing an image as text (R252, R15) -/

/-- The decimal digits of a number, at most `fuel` of them, before `acc`. -/
def decimalDigits : Nat → Nat → List Char → List Char
  | 0, _, acc => acc
  | fuel + 1, n, acc =>
    let acc' := Char.ofNat ('0'.toNat + n % 10) :: acc
    if n / 10 = 0 then acc' else decimalDigits fuel (n / 10) acc'

/-- A number below 10^20 in decimal. -/
def natText (n : Nat) : List Char := decimalDigits 20 n []

/-- A word in decimal, with a minus sign if it is negative (R252). -/
def wordText (w : Word) : List Char :=
  if w.toInt < 0 then '-' :: natText w.toInt.natAbs else natText w.toInt.natAbs

/-- The text of an image: its words in decimal, separated by commas (R252). -/
def imageText : List Word → List Char
  | [] => []
  | [w] => wordText w
  | w :: ws => wordText w ++ ',' :: imageText ws

end Sys2Proof.Machine
end

