-- ==== Sys2Proof/Machine/Engine.lean ====
section
/-!
DEFINITION. The execution engine with its results (46_host_interface.md R180 to R182), under any configuration: what a step
returns to the host beside the state it leaves, and `run`.
-/

namespace Sys2Proof.Machine

/-- The rule of an instruction, with the result it returns (R180). -/
def execReply (c : Config) (i : Instr) (s : State) : Reply :=
  match i with
  | .add a b dst => addReply c a b dst s
  | .mul a b dst => mulReply c a b dst s
  | .inp dst => inReply c dst s
  | .out a => outReply a s
  | .jt a target => jtReply a target s
  | .jf a target => jfReply a target s
  | .lt a b dst => ltReply c a b dst s
  | .eq a b dst => eqReply c a b dst s
  | .arb a => arbReply c a s
  | .hlt => hltReply s

/-- `step()` with its result (R180). -/
def stepReply (c : Config) (s : State) : Reply :=
  match nextAction s with
  | .latched f => ⟨s, .faulted f⟩
  | .terminated => ⟨s, .halted⟩
  | .illegal => raise s .unknownOpcode
  | .execute i => execReply c i s

/-- `run()` with fuel (R181, U11): steps until a result other than Advanced; `none` if the fuel ends first
(DESIGN CHOICE, safe: log entry 9). -/
def runFuel (c : Config) : Nat → State → Option Reply
  | 0, _ => none
  | n + 1, s =>
    let r := stepReply c s
    if r.result = .advanced then runFuel c n r.state else some r

/-- `run()` returns this reply (R181): the least fixed point of the iteration of `step`. -/
def RunReturns (c : Config) (s : State) (r : Reply) : Prop := ∃ n, runFuel c n s = some r

/-- A core that would pause: Ready, an `in` at `pc` whose destination resolves, and no input (R31). -/
def State.awaitingInput (c : Config) (s : State) : Bool :=
  match nextAction s with
  | .execute (.inp dst) =>
    match writeAddr c s dst with
    | .ok _ => s.inq.isEmpty
    | .error _ => false
  | _ => false

end Sys2Proof.Machine
end

