-- ==== Sys2Proof/Machine/HostOps.lean ====
section
/-!
DEFINITION. The host's operations on a core at rest (46_host_interface.md R183 to R188), and a host's whole conversation with
one core as a list of calls. Load, which makes a core, is in Machine/Loader.lean; `run` is `runFuel` in
Machine/Engine.lean.
-/

namespace Sys2Proof.Machine

/-- `push_input(value)` (R183). -/
def pushInput (v : Word) (s : State) : State := s.pushIn v

/-- `pop_output()` (R184). -/
def popOutput (s : State) : Option Word × State :=
  match s.outq with
  | [] => (none, s)
  | h :: rest => (some h, s.setOutq rest)

/-- `output_drain()` (R185). -/
def outputDrain (s : State) : List Word × State := (s.outq, s.setOutq [])

/-- `set_memory(address, value)` (R186): refused as an error of the call where the address is no writable one, else
MemWrite. The fault latch is not touched. -/
def setMemory (c : Config) (a : Int) (v : Word) (s : State) : Except Fault State :=
  if a < 0 ∨ (addrMax : Int) < a then .error .invalidAddress
  else if c.memCap ≤ a.toNat then .error .capacityExceeded
  else .ok (s.store a.toNat v)

/-- `clone()` (R188): the original, unchanged, and a core with the same seven components. -/
def clone (s : State) : State × State := (s, s)

/-- A call a host can make on one core at rest (R183 to R188, R180). -/
inductive HostCall where
  | pushInput (v : Word)
  | popOutput
  | outputDrain
  | setMemory (a : Int) (v : Word)
  | isTerminated
  | clone
  | step
  deriving DecidableEq, Repr

/-- What a call returns to the host. -/
inductive HostAnswer where
  | done
  | refused (f : Fault)
  | popped (w : Option Word)
  | drained (ws : List Word)
  | terminated (b : Bool)
  | cloned (copy : State)
  | stepped (r : StepResult)
  deriving DecidableEq, Repr

/-- One call: what it returns and the state it leaves (R16, R190). -/
def hostCall (c : Config) (k : HostCall) (s : State) : HostAnswer × State :=
  match k with
  | .pushInput v => (.done, pushInput v s)
  | .popOutput => (.popped (popOutput s).1, (popOutput s).2)
  | .outputDrain => (.drained (outputDrain s).1, (outputDrain s).2)
  | .setMemory a v =>
    match setMemory c a v s with
    | .ok s' => (.done, s')
    | .error f => (.refused f, s)
  | .isTerminated => (.terminated s.terminated, s)
  | .clone => (.cloned (clone s).1, (clone s).2)
  | .step => (.stepped (stepReply c s).result, (stepReply c s).state)

/-- A sequence of calls, one after the other (R190; DEDUCED, unsafe if a host breaks its duties: log entry 13). -/
def hostCalls (c : Config) : List HostCall → State → State
  | [], s => s
  | k :: ks, s => hostCalls c ks (hostCall c k s).2

/-- `pop_output()` until it returns none: the words in order, and the state left (R185); `fuel` bounds the calls. -/
def popAll : Nat → State → List Word × State
  | 0, s => ([], s)
  | fuel + 1, s =>
    match popOutput s with
    | (none, s') => ([], s')
    | (some w, s') => (w :: (popAll fuel s').1, (popAll fuel s').2)

end Sys2Proof.Machine
end

