-- ==== Sys2Proof/Safety.lean ====
section
/-!
DEFINITION. The terms claims use: when a parameter resolves, to what, and which fault it raises otherwise
(40_operand_resolver.md R111 to R114), written apart from the resolver's own functions; and the invariant of every
reachable state.
-/

namespace Sys2Proof.Machine

/-- The integer a parameter's address is made from lies in 0 to ADDR_MAX (R111). -/
abbrev InAddressSpace (z : Int) : Prop := 0 ≤ z ∧ z < 2 ^ 63

/-- The fault of an address made from this integer, if any (R111): InvalidAddress outside the address space. -/
def addressFault (z : Int) : Option Fault := if InAddressSpace z then none else some .invalidAddress

/-- The fault a source parameter raises, if any, in the order of R114: mode digit, then address. -/
def sourceFault (s : State) (o : Operand) : Option Fault :=
  match o.mode with
  | .illegal _ => some .invalidMode
  | .immediate => none
  | .position => addressFault o.raw.toInt
  | .relative => addressFault (s.rb.toInt + o.raw.toInt)

/-- The fault a destination parameter raises on this hardware, if any, in the order of R114. -/
def destFault (s : State) (o : Operand) : Option Fault :=
  match o.mode with
  | .illegal _ => some .invalidMode
  | .immediate => some .badDestinationMode
  | .position => addressFault o.raw.toInt
  | .relative => addressFault (s.rb.toInt + o.raw.toInt)

/-- The address of a parameter in position or relative mode (R111); meaningful where no fault is raised. -/
def operandAddress (s : State) (o : Operand) : Nat :=
  match o.mode with
  | .relative => (s.rb.toInt + o.raw.toInt).toNat
  | .position | .immediate | .illegal _ => o.raw.toInt.toNat

/-- The value of a source parameter (R112); meaningful where no fault is raised. -/
def sourceValue (s : State) (o : Operand) : Word :=
  match o.mode with
  | .immediate => o.raw
  | .position | .relative | .illegal _ => s.mem.read (operandAddress s o)

/-- The fault of a taken jump to a negative target (R152). -/
def targetFault (taken : Prop) [Decidable taken] (t : Word) : Option Fault :=
  if taken ∧ t.toInt < 0 then some .invalidAddress else none

/-- The first of these faults, in order. -/
def firstFault : List (Option Fault) → Option Fault
  | [] => none
  | some f :: _ => some f
  | none :: rest => firstFault rest

/-- The fault executing an instruction raises on this hardware, if any: the first that fails, in the order of R114
and R220. -/
def instrFault (s : State) : Instr → Option Fault
  | .add a b d => firstFault [sourceFault s a, sourceFault s b, destFault s d]
  | .mul a b d => firstFault [sourceFault s a, sourceFault s b, destFault s d]
  | .inp d => destFault s d
  | .out a => sourceFault s a
  | .jt a t => firstFault [sourceFault s a, sourceFault s t, targetFault (sourceValue s a ≠ 0) (sourceValue s t)]
  | .jf a t => firstFault [sourceFault s a, sourceFault s t, targetFault (sourceValue s a = 0) (sourceValue s t)]
  | .lt a b d => firstFault [sourceFault s a, sourceFault s b, destFault s d]
  | .eq a b d => firstFault [sourceFault s a, sourceFault s b, destFault s d]
  | .arb a => sourceFault s a
  | .hlt => none

/-- The causes that can be latched on this hardware: neither of the two parameters' causes (R9, R215). -/
abbrev LatchOk (f : Option Fault) : Prop :=
  f = none ∨ f = some .invalidAddress ∨ f = some .badDestinationMode ∨ f = some .unknownOpcode ∨ f = some .invalidMode

/-- What holds of every state a host can bring this hardware to: memory is in its canonical form (log
entry 1, with R25 and R26), `pc` is at most 2^63 + 3 (R23), the latch holds none of the parameters' causes (R215), and a faulted
core's `pc` is inside memory (R218). -/
abbrev State.Inv (s : State) : Prop :=
  s.mem.wf ∧ s.pc.toNat ≤ 2 ^ 63 + 3 ∧ LatchOk s.fault ∧ (s.fault ≠ none → s.pc.toNat < s.mem.len)

/-- Executing `i` at `s` completes in `t`: the next state is `t` and the step returns Advanced (R180, R182). -/
abbrev Commits (i : Instr) (s t : State) : Prop := exec i s = .next t ∧ execReply hardware i s = ⟨t, .advanced⟩

/-- Executing `i` at `s` raises `f`: the next state differs in the latch alone, and the step returns Faulted(f) (R14, R218). -/
abbrev Faults (i : Instr) (s : State) (f : Fault) : Prop :=
  exec i s = .next { s with fault := some f } ∧
  execReply hardware i s = ⟨{ s with fault := some f }, .faulted f⟩

/-- The word is congruent to the integer modulo 2^64: it is `wrap64` of it (R12). -/
abbrev IsWrapOf (w : Word) (z : Int) : Prop := (2 ^ 64 : Int) ∣ w.toInt - z

/-- The decimal digits `opcode` and `mode[i]` of a non-negative integer (R81), read from the integer itself. -/
def opcodeDigits (v : Int) : Int := v % 100

/-- The decimal digit of parameter `k`'s mode (R81). -/
def modeDigitOf (v : Int) (k : Nat) : Int := v / 10 ^ (2 + k) % 10

/-- The defined opcodes (R83). -/
def definedOpcodes : List Int := [1, 2, 3, 4, 5, 6, 7, 8, 9, 99]

/-- The word is no instruction: it is negative, or its opcode is not defined (R82, R92). -/
abbrev IllegalWord (v : Word) : Prop := v.toInt < 0 ∨ opcodeDigits v.toInt ∉ definedOpcodes

/-- Both sources and the destination of an instruction of format F3 resolve without a fault. -/
abbrev F3Resolves (s : State) (a b d : Operand) : Prop :=
  sourceFault s a = none ∧ sourceFault s b = none ∧ destFault s d = none

end Sys2Proof.Machine
end

