-- ==== Sys2Proof/Certificates/Slice0/Obligations.lean ====
section
/-!
DEFINITION. What is claimed of the Intcode core, one statement per definition, from the numbered rules of spec/. Sources and
destinations are described in the terms of Safety.lean (`sourceFault`, `sourceValue`, `destFault`, `operandAddress`), not by the
resolver's own functions, except where a frame names the address a meaning stores to.
-/

open Sys2Proof Sys2Proof.Machine

/-! ### Encoding -/

/-- R81, R91, R95: decoding the words of any instruction, whatever follows them, gives it back. -/
def Obligations.DecodeOfEncodeIsIdentity : Prop :=
  ∀ (i : Instr) (rest : List Word), decodeWords (encode i ++ rest) = .ok i

/-- R83, R91, R92: a word decodes exactly when it is no illegal word, and the instruction's opcode is then `v mod 100` and its
parameters the words after it, each with its own mode digit. -/
def Obligations.DecodeReadsOpcodeAndModeDigits : Prop :=
  ∀ (v r0 r1 r2 : Word),
    (IllegalWord v → ∃ e, decode v r0 r1 r2 = .error e) ∧
    (¬ IllegalWord v → ∃ i, decode v r0 r1 r2 = .ok i ∧ (i.opcode : Int) = opcodeDigits v.toInt ∧
      i.params.map Operand.raw = [r0, r1, r2].take (i.length - 1) ∧
      ∀ (k : Nat) (o : Operand), i.params[k]? = some o → (o.mode.digit : Int) = modeDigitOf v.toInt k)

/-- R87, R88: digits of absent parameters and digits at 10^5 and above change nothing: a second non-negative word with the same
opcode digits and the same mode digits of the parameters the opcode has decodes to the same instruction. -/
def Obligations.UnusedDigitsAreIgnored : Prop :=
  ∀ (v v' r0 r1 r2 : Word) (i : Instr), decode v r0 r1 r2 = .ok i → 0 ≤ v'.toInt →
    opcodeDigits v'.toInt = opcodeDigits v.toInt →
    (∀ k < i.params.length, modeDigitOf v'.toInt k = modeDigitOf v.toInt k) →
    decode v' r0 r1 r2 = .ok i

/-- R88, R95: the assembler's instruction words lie in 1 to 22208. -/
def Obligations.AssembledWordsLieInOneTo22208 : Prop :=
  ∀ (i : Instr), i.wellFormed = true → ∃ w ops, encode i = w :: ops ∧ w.toInt = i.wordValue ∧
    1 ≤ w.toInt ∧ w.toInt ≤ 22208

/-- Words written out from 30_encoding.md section 6 decode to the instructions the table gives for them. -/
def Obligations.WorkedEncodingsDecode : Prop :=
  decodeWords [1002, 4, 3, 4] = .ok (.mul ⟨.position, 4⟩ ⟨.immediate, 3⟩ ⟨.position, 4⟩) ∧
  decodeWords [1101, 100, -1, 4] = .ok (.add ⟨.immediate, 100⟩ ⟨.immediate, -1⟩ ⟨.position, 4⟩) ∧
  decodeWords [21207, 60, 100, 61] = .ok (.lt ⟨.relative, 60⟩ ⟨.immediate, 100⟩ ⟨.relative, 61⟩) ∧
  decodeWords [203, 2] = .ok (.inp ⟨.relative, 2⟩) ∧
  decodeWords [1005, 15, 0] = .ok (.jt ⟨.position, 15⟩ ⟨.immediate, 0⟩) ∧
  decodeWords [109, 50] = .ok (.arb ⟨.immediate, 50⟩) ∧
  decodeWords [100104, 42] = .ok (.out ⟨.immediate, 42⟩) ∧
  decodeWords [99] = .ok .hlt ∧
  decodeWords [0] = .error (.undefinedOpcode 0) ∧
  decodeWords [-1] = .error .negativeWord

/-! ### Memory -/

/-- R53, R54: a write at `a` makes `mem_len` at least `a + 1` (exactly `a + 1` if it was at most `a`, else unchanged), leaves `v`
at `a`, every other word as it was, and 0 at every address at or above the old length other than `a`. -/
def Obligations.WriteGrowsWithZeroFill : Prop :=
  ∀ (m : Memory) (a : Nat) (v : Word),
    (m.write a v).len = (if m.len ≤ a then a + 1 else m.len) ∧ m.len ≤ (m.write a v).len ∧
    (m.write a v).read a = v ∧
    (∀ b, b ≠ a → (m.write a v).read b = m.read b) ∧
    (∀ b, m.len ≤ b → b ≠ a → (m.write a v).read b = 0)

/-- Two memories in canonical form with the same length and the same words are the same data (log entry 1). -/
def Obligations.CanonicalMemoriesWithEqualWordsAreEqual : Prop :=
  ∀ (m n : Memory), m.wf → n.wf → m.len = n.len → (∀ a < m.len, m.read a = n.read a) → m = n

/-- R26, R54: no step and no host call makes `mem_len` smaller, whatever the sequence of calls and the parameters. -/
def Obligations.MemoryLengthNeverDecreases : Prop :=
  ∀ (c : Config) (calls : List HostCall) (s : State), s.mem.len ≤ (hostCalls c calls s).mem.len

/-- R58: with a capacity, a destination address at or beyond it raises CapacityExceeded, `mem_len` never exceeds it, and a read
there gives 0. -/
def Obligations.CapacityBoundsTheStore : Prop :=
  ∀ (c : Config),
    (∀ (s : State) (a b d : Operand), destFault s d = none → c.memCap ≤ operandAddress s d →
      execReply c (.inp d) s = ⟨{ s with fault := some .capacityExceeded }, .faulted .capacityExceeded⟩ ∧
      (sourceFault s a = none → sourceFault s b = none →
        ∀ i, i = .add a b d ∨ i = .mul a b d ∨ i = .lt a b d ∨ i = .eq a b d →
          execReply c i s = ⟨{ s with fault := some .capacityExceeded }, .faulted .capacityExceeded⟩)) ∧
    (∀ (calls : List HostCall) (s : State), s.mem.len ≤ c.memCap → (hostCalls c calls s).mem.len ≤ c.memCap) ∧
    (∀ (s : State) (a : Nat), s.mem.len ≤ c.memCap → c.memCap ≤ a → s.mem.read a = 0)

/-- R66, R257: a store is seen by the very next fetch: after `add` the next fetch decodes memory as it was, but for the word
just written. -/
def Obligations.StoreIsSeenByTheNextFetch : Prop :=
  ∀ (a b d : Operand) (s : State), F3Resolves s a b d → ∃ t, exec (.add a b d) s = .next t ∧
    let after := fun q => if q = operandAddress s d then sourceValue s a + sourceValue s b else s.mem.read q
    let p := (s.pc + 4).toNat
    fetch t = decode (after p) (after (p + 1)) (after (p + 2)) (after (p + 3))

/-! ### Instructions: results -/

/-- R130: `add` raises the first fault of its parameters, or writes the sum, reduced to the word congruent to it modulo 2^64 (the
spec's decision D2), and advances `pc` by 4. -/
def Obligations.AddWritesTheWrappedSum : Prop :=
  ∀ (a b d : Operand) (s : State),
    (∀ f, instrFault s (.add a b d) = some f → Faults (.add a b d) s f) ∧
    (∀ (r : Word), F3Resolves s a b d → IsWrapOf r ((sourceValue s a).toInt + (sourceValue s b).toInt) →
      Commits (.add a b d) s { s with mem := s.mem.write (operandAddress s d) r, pc := s.pc + 4 })

/-- R131: `mul` raises the first fault of its parameters, or writes the product, reduced to the word congruent to it modulo 2^64
(the spec's decision D2), and advances `pc` by 4. -/
def Obligations.MulWritesTheWrappedProduct : Prop :=
  ∀ (a b d : Operand) (s : State),
    (∀ f, instrFault s (.mul a b d) = some f → Faults (.mul a b d) s f) ∧
    (∀ (r : Word), F3Resolves s a b d → IsWrapOf r ((sourceValue s a).toInt * (sourceValue s b).toInt) →
      Commits (.mul a b d) s { s with mem := s.mem.write (operandAddress s d) r, pc := s.pc + 4 })

/-- R160: `lt` raises the first fault of its parameters, or writes 1 if a is less than b, else 0, and advances `pc` by 4. That the
comparison is signed is the spec's own inference from R4 ("Operands are signed 64-bit integers, so the comparison is signed"). -/
def Obligations.LtWritesTheSignedComparison : Prop :=
  ∀ (a b d : Operand) (s : State),
    (∀ f, instrFault s (.lt a b d) = some f → Faults (.lt a b d) s f) ∧
    (F3Resolves s a b d →
      Commits (.lt a b d) s { s with
        mem := s.mem.write (operandAddress s d) (if (sourceValue s a).toInt < (sourceValue s b).toInt then 1 else 0)
        pc := s.pc + 4 })

/-- R161: `eq` raises the first fault of its parameters, or writes 1 if the operands are equal, else 0, and advances `pc` by 4. -/
def Obligations.EqWritesTheEquality : Prop :=
  ∀ (a b d : Operand) (s : State),
    (∀ f, instrFault s (.eq a b d) = some f → Faults (.eq a b d) s f) ∧
    (F3Resolves s a b d →
      Commits (.eq a b d) s { s with
        mem := s.mem.write (operandAddress s d) (if (sourceValue s a).toInt = (sourceValue s b).toInt then 1 else 0)
        pc := s.pc + 4 })

/-- R140: `in` whose destination faults raises that fault whether or not input waits; on an empty queue it is Paused and changes
nothing; otherwise it removes the head word, writes it and advances `pc` by 2. -/
def Obligations.InReadsOneWordOrPauses : Prop :=
  ∀ (d : Operand) (s : State),
    (∀ f, destFault s d = some f → Faults (.inp d) s f) ∧
    (destFault s d = none → s.inq = [] →
      exec (.inp d) s = .next s ∧ execReply hardware (.inp d) s = ⟨s, .paused⟩) ∧
    (∀ v rest, destFault s d = none → s.inq = v :: rest →
      Commits (.inp d) s { s with
        inq := rest
        mem := s.mem.write (operandAddress s d) v
        pc := s.pc + 2 })

/-- R141: `out` raises its operand's fault, or appends its operand's value at the tail of the output queue and advances `pc` by 2; it never blocks. -/
def Obligations.OutAppendsToTheOutputQueue : Prop :=
  ∀ (a : Operand) (s : State),
    (∀ f, sourceFault s a = some f → Faults (.out a) s f) ∧
    (sourceFault s a = none →
      Commits (.out a) s { s with outq := s.outq ++ [sourceValue s a], pc := s.pc + 2 })

/-- R150: `jt` raises the first fault of its parameters and target, or sets `pc` to the target if its first operand is not zero,
else advances `pc` by 3; nothing else changes. -/
def Obligations.JtJumpsIfNotZero : Prop :=
  ∀ (a t : Operand) (s : State),
    (∀ f, instrFault s (.jt a t) = some f → Faults (.jt a t) s f) ∧
    (sourceFault s a = none → sourceFault s t = none →
      (sourceValue s a ≠ 0 → 0 ≤ (sourceValue s t).toInt → Commits (.jt a t) s { s with pc := sourceValue s t }) ∧
      (sourceValue s a = 0 → Commits (.jt a t) s { s with pc := s.pc + 3 }))

/-- R151: `jf` raises the first fault of its parameters and target, or sets `pc` to the target if its first operand is zero,
else advances `pc` by 3; nothing else changes. -/
def Obligations.JfJumpsIfZero : Prop :=
  ∀ (a t : Operand) (s : State),
    (∀ f, instrFault s (.jf a t) = some f → Faults (.jf a t) s f) ∧
    (sourceFault s a = none → sourceFault s t = none →
      (sourceValue s a = 0 → 0 ≤ (sourceValue s t).toInt → Commits (.jf a t) s { s with pc := sourceValue s t }) ∧
      (sourceValue s a ≠ 0 → Commits (.jf a t) s { s with pc := s.pc + 3 }))

/-- R152: a taken jump to a negative target raises InvalidAddress; a jump not taken never faults on the target's value; a
non-negative target is accepted, and from a target at or beyond `mem_len` the next step is Halted. -/
def Obligations.JumpTargetsAreCheckedWhenTaken : Prop :=
  ∀ (a t : Operand) (s : State), sourceFault s a = none → sourceFault s t = none →
    ∀ (i : Instr) (taken : Prop),
      (i = .jt a t ∧ (taken ↔ sourceValue s a ≠ 0)) ∨ (i = .jf a t ∧ (taken ↔ sourceValue s a = 0)) →
      (taken → (sourceValue s t).toInt < 0 → Faults i s .invalidAddress) ∧
      (¬ taken → Commits i s { s with pc := s.pc + 3 }) ∧
      (taken → 0 ≤ (sourceValue s t).toInt → Commits i s { s with pc := sourceValue s t } ∧
        (s.fault = none → (s.mem.len : Int) ≤ (sourceValue s t).toInt →
          stepReply hardware { s with pc := sourceValue s t } = ⟨{ s with pc := sourceValue s t }, .halted⟩))

/-- R116: the target of a jump is resolved before the condition is tested: a fault in resolving it is raised whatever the
condition's value. -/
def Obligations.JumpsResolveTheirTargetEagerly : Prop :=
  ∀ (a t : Operand) (s : State) (f : Fault), sourceFault s a = none → sourceFault s t = some f →
    Faults (.jt a t) s f ∧ Faults (.jf a t) s f

/-- R170: `arb` raises its operand's fault, or adds its operand to the relative base, reduced modulo 2^64 (the spec's decision D2),
and advances `pc` by 2; no other instruction changes the relative base, and none reads it but through a relative-mode parameter:
with another relative base the outcome is the same but for the relative base itself. -/
def Obligations.ArbAdjustsTheRelativeBase : Prop :=
  (∀ (a : Operand) (s : State) (f : Fault), sourceFault s a = some f → Faults (.arb a) s f) ∧
  (∀ (a : Operand) (s : State) (r : Word), sourceFault s a = none →
    IsWrapOf r (s.rb.toInt + (sourceValue s a).toInt) →
    Commits (.arb a) s { s with rb := r, pc := s.pc + 2 }) ∧
  (∀ (i : Instr) (s : State), (∀ a, i ≠ .arb a) →
    (∀ t, exec i s = .next t → t.rb = s.rb) ∧
    ((∀ o ∈ i.params, o.mode ≠ .relative) → ∀ (r : Word), ∃ t, exec i s = .next t ∧
      exec i { s with rb := r } = .next { t with rb := r }))

/-- R171: `hlt` sets `pc` to 2^63 and returns Halted; from a state whose `mem_len` is at most 2^63 the core then is terminated,
and stays so with every step Halted and changing nothing, whatever the host does. -/
def Obligations.HltHaltsForGood : Prop :=
  ∀ (s : State),
    exec .hlt s = .next { s with pc := BitVec.ofNat 64 (2 ^ 63) } ∧
    execReply hardware .hlt s = ⟨{ s with pc := BitVec.ofNat 64 (2 ^ 63) }, .halted⟩ ∧
    (s.fault = none → s.mem.len ≤ 2 ^ 63 → ∀ (calls : List HostCall),
      let t := hostCalls hardware calls { s with pc := BitVec.ofNat 64 (2 ^ 63) }
      t.terminated = true ∧ t.pc.toNat = 2 ^ 63 ∧ stepReply hardware t = ⟨t, .halted⟩)

/-- R172: a word at `pc` that is negative or has an undefined opcode raises UnknownOpcode: no state changes but the latch, and so
it is at every later step. -/
def Obligations.IllegalWordsRaiseUnknownOpcode : Prop :=
  ∀ (s : State), s.fault = none → s.pc.toNat < s.mem.len → IllegalWord (s.mem.read s.pc.toNat) →
    let t : State := { s with fault := some .unknownOpcode }
    step s = .next t ∧ stepReply hardware s = ⟨t, .faulted .unknownOpcode⟩ ∧
    step t = .next t ∧ stepReply hardware t = ⟨t, .faulted .unknownOpcode⟩

/-- R132: addition and multiplication are commutative: with both sources readable, exchanging them changes nothing; and the sum
of a word and its wrapped negation wraps to 0. -/
def Obligations.AddAndMulCommute : Prop :=
  (∀ (a b d : Operand) (s : State), sourceFault s a = none → sourceFault s b = none →
    exec (.add a b d) s = exec (.add b a d) s ∧ exec (.mul a b d) s = exec (.mul b a d) s) ∧
  (∀ (w : Word), wrap64 (w.toInt + (wrap64 (-w.toInt)).toInt) = 0)

/-! ### Instructions: faults -/

/-- R114, R220 on this hardware: an instruction returns Faulted(f) exactly when `f` is the first check that fails, in the fixed
order, and then only the latch changes; otherwise the latch keeps its value. -/
def Obligations.TheFirstFailingCheckIsTheFault : Prop :=
  ∀ (i : Instr) (s : State),
    (∀ f, instrFault s i = some f ↔ (execReply hardware i s).result = .faulted f) ∧
    (∀ f, instrFault s i = some f → Faults i s f) ∧
    (instrFault s i = none → ∃ t, exec i s = .next t ∧ t.fault = s.fault)

/-- R212: an immediate destination, with the sources before it resolved, raises BadDestinationMode, for `in` even with an empty
queue. -/
def Obligations.ImmediateDestinationsFault : Prop :=
  ∀ (a b : Operand) (raw : Word) (s : State),
    Faults (.inp ⟨.immediate, raw⟩) s .badDestinationMode ∧
    (sourceFault s a = none → sourceFault s b = none →
      Faults (.add a b ⟨.immediate, raw⟩) s .badDestinationMode ∧
      Faults (.mul a b ⟨.immediate, raw⟩) s .badDestinationMode ∧
      Faults (.lt a b ⟨.immediate, raw⟩) s .badDestinationMode ∧
      Faults (.eq a b ⟨.immediate, raw⟩) s .badDestinationMode)

/-- R218: a step that raises a fault changes nothing but the latch, under any parameters. -/
def Obligations.FaultsArePrecise : Prop :=
  ∀ (c : Config) (s : State) (f : Fault), (stepReply c s).result = .faulted f →
    (stepReply c s).state = { s with fault := some f }

/-- R219: a latched fault stays whatever calls the host makes, and every step then returns it and changes nothing. -/
def Obligations.FaultsAreSticky : Prop :=
  ∀ (c : Config) (calls : List HostCall) (s : State) (f : Fault), s.fault = some f →
    let t := hostCalls c calls s
    t.fault = some f ∧ stepReply c t = ⟨t, .faulted f⟩ ∧ runFuel c 1 t = some ⟨t, .faulted f⟩

/-- U1 of 93_implementation_defined.md (the model's place for the check is log entry 5): with ALU_OVERFLOW = fault an add, mul or
relative-base adjustment whose exact result is outside I64 raises ArithmeticOverflow and changes nothing else. -/
def Obligations.OverflowFaultsWhenConfigured : Prop :=
  ∀ (c : Config) (s : State), c.aluOverflow = .fault → 2 ^ 63 ≤ c.memCap →
    (∀ a b d, F3Resolves s a b d → ¬ InI64 ((sourceValue s a).toInt + (sourceValue s b).toInt) →
      execReply c (.add a b d) s = ⟨{ s with fault := some .arithmeticOverflow }, .faulted .arithmeticOverflow⟩) ∧
    (∀ a b d, F3Resolves s a b d → ¬ InI64 ((sourceValue s a).toInt * (sourceValue s b).toInt) →
      execReply c (.mul a b d) s = ⟨{ s with fault := some .arithmeticOverflow }, .faulted .arithmeticOverflow⟩) ∧
    (∀ a, sourceFault s a = none → ¬ InI64 (s.rb.toInt + (sourceValue s a).toInt) →
      execReply c (.arb a) s = ⟨{ s with fault := some .arithmeticOverflow }, .faulted .arithmeticOverflow⟩)

/-! ### Frames -/

/-- What `add`, `mul`, `lt` and `eq` leave unchanged: the relative base, both queues, the latch unless a check fails, and every
word but the one at the destination address; where no word is stored, all of memory. `pc` may change. -/
def Obligations.StoringInstructionsFrame : Prop :=
  ∀ (a b d : Operand) (s t : State) (i : Instr),
    i = .add a b d ∨ i = .mul a b d ∨ i = .lt a b d ∨ i = .eq a b d → exec i s = .next t →
    t.rb = s.rb ∧ t.inq = s.inq ∧ t.outq = s.outq ∧
    (instrFault s i = none → t.fault = s.fault) ∧
    (instrFault s i ≠ none → t.mem = s.mem ∧ t.pc = s.pc) ∧
    (∀ p, writeAddr hardware s d = .ok p → ∀ q, q ≠ p → t.mem.read q = s.mem.read q) ∧
    (∀ f, writeAddr hardware s d = .error f → ∀ q, t.mem.read q = s.mem.read q) ∧
    (∀ p, writeAddr hardware s d = .ok p → t.mem.len = s.mem.len ∨ t.mem.len = max s.mem.len (p + 1))

/-- What `in` leaves unchanged: the relative base, the output queue, the latch unless its destination faults, the input queue but
for its head word, and every word but the one at the destination address; with no input, everything. -/
def Obligations.InFrame : Prop :=
  ∀ (d : Operand) (s t : State), exec (.inp d) s = .next t →
    t.rb = s.rb ∧ t.outq = s.outq ∧
    (t.inq = s.inq ∨ t.inq = s.inq.tail) ∧
    (destFault s d = none → t.fault = s.fault) ∧
    (destFault s d ≠ none → t = { s with fault := destFault s d }) ∧
    (∀ p, writeAddr hardware s d = .ok p → ∀ q, q ≠ p → t.mem.read q = s.mem.read q) ∧
    (∀ f, writeAddr hardware s d = .error f → ∀ q, t.mem.read q = s.mem.read q) ∧
    (∀ p, writeAddr hardware s d = .ok p → t.mem.len = s.mem.len ∨ t.mem.len = max s.mem.len (p + 1)) ∧
    (destFault s d = none → s.inq = [] → t = s)

/-- What `out`, `jt`, `jf`, `arb` and `hlt` leave unchanged: all of memory, `mem_len`, the input queue, the latch unless a check
fails; the output queue but for `out`, the relative base but for `arb`. `pc` may change. -/
def Obligations.NonStoringInstructionsFrame : Prop :=
  ∀ (a b : Operand) (s t : State) (i : Instr),
    i = .out a ∨ i = .jt a b ∨ i = .jf a b ∨ i = .arb a ∨ i = .hlt → exec i s = .next t →
    t.mem = s.mem ∧ (∀ q, t.mem.read q = s.mem.read q) ∧ t.inq = s.inq ∧
    (instrFault s i = none → t.fault = s.fault) ∧
    (instrFault s i ≠ none → t.rb = s.rb ∧ t.outq = s.outq ∧ t.pc = s.pc) ∧
    (i ≠ .out a → t.outq = s.outq) ∧ (i ≠ .arb a → t.rb = s.rb)

/-! ### The step -/

/-- R180: when the latch is clear, `pc` is inside memory and the words at `pc` decode to `i`, the step is the execution of `i`;
nothing is done around it. -/
def Obligations.StepExecutesTheDecodedInstruction : Prop :=
  ∀ (s : State) (i : Instr), s.fault = none → s.pc.toNat < s.mem.len →
    decode (s.mem.read s.pc.toNat) (s.mem.read (s.pc.toNat + 1)) (s.mem.read (s.pc.toNat + 2))
      (s.mem.read (s.pc.toNat + 3)) = .ok i →
    step s = exec i s ∧ stepReply hardware s = execReply hardware i s

/-- R180: the latch is tested first, then termination; either way the step changes nothing and returns the result that stands. -/
def Obligations.FaultedAndTerminatedCoresStayAsTheyAre : Prop :=
  ∀ (s : State),
    (∀ f, s.fault = some f → step s = .next s ∧ stepReply hardware s = ⟨s, .faulted f⟩) ∧
    (s.fault = none → s.mem.len ≤ s.pc.toNat → step s = .next s ∧ stepReply hardware s = ⟨s, .halted⟩)

/-- R182: what each result says of the step and of the state it leaves. -/
def Obligations.StepResultsMeanWhatTheySay : Prop :=
  ∀ (s : State),
    ((stepReply hardware s).result = .advanced ↔ ∃ i, nextAction s = .execute i ∧ i ≠ .hlt ∧ instrFault s i = none ∧
      ¬ ((∃ d, i = .inp d) ∧ s.inq = [])) ∧
    ((stepReply hardware s).result = .paused ↔
      ∃ d, nextAction s = .execute (.inp d) ∧ destFault s d = none ∧ s.inq = []) ∧
    ((stepReply hardware s).result = .paused → (stepReply hardware s).state = s) ∧
    ((stepReply hardware s).result = .halted ↔
      s.fault = none ∧ (s.mem.len ≤ s.pc.toNat ∨ nextAction s = .execute .hlt)) ∧
    (∀ f, (stepReply hardware s).result = .faulted f ↔ (stepReply hardware s).state.fault = some f)

/-- R31, R192: a core is awaiting input exactly when its next step would be Paused, and is then Ready; the rest state tests the
latch first, then `pc >= mem_len`. -/
def Obligations.RestStatesClassify : Prop :=
  ∀ (c : Config) (s : State),
    (s.awaitingInput c = true ↔ (stepReply c s).result = .paused) ∧
    (s.awaitingInput c = true → s.restState = .ready) ∧
    (∀ f, s.restState = .faulted f ↔ s.fault = some f) ∧
    (s.restState = .halted ↔ s.fault = none ∧ s.mem.len ≤ s.pc.toNat) ∧
    (s.restState = .ready ↔ s.fault = none ∧ s.pc.toNat < s.mem.len)

/-- R27, R28: a step takes at most the head of the input queue and adds at most one word at the tail of the output queue, the
first only by `in`, the second only by `out`. -/
def Obligations.StepsMoveAtMostOneQueueWord : Prop :=
  ∀ (c : Config) (s : State),
    let t := (stepReply c s).state
    (t.inq = s.inq ∨ ∃ v d, s.inq = v :: t.inq ∧ nextAction s = .execute (.inp d)) ∧
    (t.outq = s.outq ∨ ∃ v a, t.outq = s.outq ++ [v] ∧ nextAction s = .execute (.out a))

/-- R28: no instruction reads the output queue: words already there change nothing of what a step does and returns. -/
def Obligations.TheOutputQueueIsNotRead : Prop :=
  ∀ (c : Config) (s : State) (q : List Word),
    stepReply c { s with outq := q ++ s.outq } =
      ⟨{ (stepReply c s).state with outq := q ++ (stepReply c s).state.outq }, (stepReply c s).result⟩

/-- R142: a word waiting behind the queue's head changes nothing of what a step does and returns, unless the step would pause. -/
def Obligations.LaterInputIsInvisible : Prop :=
  ∀ (c : Config) (s : State) (v : Word), (stepReply c s).result ≠ .paused →
    stepReply c (pushInput v s) = ⟨pushInput v (stepReply c s).state, (stepReply c s).result⟩

/-- R183, R259: a Paused step changes nothing; after `push_input(v)` the same `in` instruction executes, consumes exactly `v` and
advances. -/
def Obligations.PushedInputResumesAPausedCore : Prop :=
  ∀ (s : State) (v : Word), (stepReply hardware s).result = .paused →
    (stepReply hardware s).state = s ∧
    ∃ d, nextAction s = .execute (.inp d) ∧
      stepReply hardware (pushInput v s) =
        ⟨{ s with mem := s.mem.write (operandAddress s d) v, pc := s.pc + 2 }, .advanced⟩

/-- R24: the relative base is written by `arb` alone: no other call of the host and no other step changes it. -/
def Obligations.OnlyArbWritesTheRelativeBase : Prop :=
  ∀ (c : Config) (k : HostCall) (s : State), (hostCall c k s).2.rb ≠ s.rb →
    k = .step ∧ ∃ a, nextAction s = .execute (.arb a)

/-! ### Reset, load and run -/

/-- R251: power-up is `load([], [])`: `pc`, `rb` and `mem_len` are 0, the queues are empty, the latch is clear, and the first step
returns Halted and changes nothing. -/
def Obligations.PowerUpIsTheEmptyLoad : Prop :=
  load hardware [] [] = .ok State.reset ∧
  State.reset.pc = 0 ∧ State.reset.rb = 0 ∧ State.reset.mem.len = 0 ∧ State.reset.mem.cells = [] ∧
  State.reset.inq = [] ∧ State.reset.outq = [] ∧ State.reset.fault = none ∧
  step State.reset = .next State.reset ∧ stepReply hardware State.reset = ⟨State.reset, .halted⟩

/-- R250: load puts word k of the image at address k, makes `mem_len` its length, `pc` and `rb` 0, the input queue the inputs in
order, the output queue empty and the latch clear. -/
def Obligations.LoadBuildsTheInitialState : Prop :=
  ∀ (c : Config) (program inputs : List Word), program.length ≤ c.memCap →
    ∃ s, load c program inputs = .ok s ∧ (∀ k w, program[k]? = some w → s.mem.read k = w) ∧
      s.mem.len = program.length ∧ s.pc = 0 ∧ s.rb = 0 ∧ s.inq = inputs ∧ s.outq = [] ∧ s.fault = none

/-- R183: initial inputs are the same as the same words pushed in the same order right after load. -/
def Obligations.InitialInputsAreEarlyPushes : Prop :=
  ∀ (c : Config) (program xs ys : List Word),
    load c program (xs ++ ys) =
      match load c program xs with
      | .ok s => .ok (hostCalls c (ys.map HostCall.pushInput) s)
      | .error e => .error e

/-- R253: a malformed token, the empty text, or an image longer than MEM_CAP is a LoadError, and no core is created. -/
def Obligations.BadImagesAreLoadErrors : Prop :=
  ∀ (c : Config) (inputs : List Word),
    (∀ (text : List Char),
      (∃ t ∈ splitCommas (text.filter (fun ch => ch ≠ '\n' ∧ ch ≠ '\r')), wordToken t = none) →
      loadText c text inputs = .error .malformedToken) ∧
    loadText c [] inputs = .error .malformedToken ∧
    (∀ (program : List Word), c.memCap < program.length → load c program inputs = .error .imageTooLong)

/-- R252: an image written as its words in decimal with commas between them is read back as the same words. -/
def Obligations.ImageTextReadsBack : Prop :=
  ∀ (ws : List Word), ws ≠ [] → parseImage (imageText ws) = .ok ws

/-- R181: `run` returns at most one reply, however much fuel is given. -/
def Obligations.RunReturnsOneReply : Prop :=
  ∀ (c : Config) (s : State) (r r' : Reply), RunReturns c s r → RunReturns c s r' → r = r'

/-- R262: a run of a loaded core ends in exactly one of the three rest states, the one its result names. -/
def Obligations.RunsEndHaltedPausedOrFaulted : Prop :=
  ∀ (s : State) (r : Reply), s.Inv → RunReturns hardware s r →
    (r.result = .halted ∧ r.state.fault = none ∧ r.state.mem.len ≤ r.state.pc.toNat) ∨
    (r.result = .paused ∧ r.state.fault = none ∧ r.state.pc.toNat < r.state.mem.len ∧
      r.state.awaitingInput hardware = true ∧ r.state.inq = []) ∨
    (∃ f, r.result = .faulted f ∧ r.state.fault = some f)

/-! ### Host operations -/

/-- R186: `set_memory` at a bad address is refused and changes nothing; otherwise it is MemWrite and nothing else, the latch and
`pc` untouched. -/
def Obligations.SetMemoryWritesOrIsRefused : Prop :=
  ∀ (c : Config) (a : Int) (v : Word) (s : State),
    (a < 0 ∨ 2 ^ 63 - 1 < a → hostCall c (.setMemory a v) s = (.refused .invalidAddress, s)) ∧
    (0 ≤ a ∧ a ≤ 2 ^ 63 - 1 → c.memCap ≤ a.toNat →
      hostCall c (.setMemory a v) s = (.refused .capacityExceeded, s)) ∧
    (0 ≤ a ∧ a ≤ 2 ^ 63 - 1 → a.toNat < c.memCap →
      hostCall c (.setMemory a v) s = (.done, { s with mem := s.mem.write a.toNat v }))

/-- R184, R185: `output_drain` returns the whole output queue, head first, and empties it: what calling `pop_output` until it
returns none collects and leaves. -/
def Obligations.DrainIsRepeatedPop : Prop :=
  ∀ (s : State), outputDrain s = (s.outq, { s with outq := [] }) ∧
    popAll (s.outq.length + 1) s = outputDrain s ∧
    (s.outq = [] → popOutput s = (none, s)) ∧
    (∀ h rest, s.outq = h :: rest → popOutput s = (some h, { s with outq := rest }))

/-- R192: every host call but a step leaves `pc`, `rb` and the latch as they are. -/
def Obligations.HostCallsKeepTheControlState : Prop :=
  ∀ (c : Config) (k : HostCall) (s : State), k ≠ .step →
    (hostCall c k s).2.pc = s.pc ∧ (hostCall c k s).2.rb = s.rb ∧ (hostCall c k s).2.fault = s.fault

/-! ### Invariants -/

/-- The power-up state meets the invariant; that memory is canonical is the model's own form (DESIGN CHOICE, log entry 1). -/
def Obligations.PowerUpMeetsTheInvariant : Prop := State.reset.Inv

/-- Every step keeps the invariant: memory stays canonical and at most 2^63 long, `pc` at most 2^63 + 3, the latch never holds a
cause this hardware cannot raise, and a faulted core's `pc` stays inside memory. That memory is canonical (addresses rising, no
listed 0) is the model's own form (DESIGN CHOICE, log entry 1), no rule of the spec. -/
def Obligations.EveryStepKeepsTheInvariant : Prop :=
  ∀ (s t : State), s.Inv → step s = .next t → t.Inv

/-- Every state a host can bring this hardware to, from any load by any sequence of calls, meets the invariant; that memory is
canonical is the model's own form (DESIGN CHOICE, log entry 1). -/
def Obligations.EveryReachableStateMeetsTheInvariant : Prop :=
  ∀ (program inputs : List Word) (s : State), load hardware program inputs = .ok s →
    ∀ (calls : List HostCall), (hostCalls hardware calls s).Inv
end

