-- ==== Sys2Proof/Laws/State.lean ====
section
/-!
SUPPORT. What each update of the state does to each field: one lemma per field and update, true by unfolding.
-/

namespace Sys2Proof.Machine

variable (s : State)

@[simp] theorem State.setPc_pc (t : BitVec 64) : (s.setPc t).pc = t := rfl
@[simp] theorem State.setPc_rb (t : BitVec 64) : (s.setPc t).rb = s.rb := rfl
@[simp] theorem State.setPc_mem (t : BitVec 64) : (s.setPc t).mem = s.mem := rfl
@[simp] theorem State.setPc_inq (t : BitVec 64) : (s.setPc t).inq = s.inq := rfl
@[simp] theorem State.setPc_outq (t : BitVec 64) : (s.setPc t).outq = s.outq := rfl
@[simp] theorem State.setPc_fault (t : BitVec 64) : (s.setPc t).fault = s.fault := rfl

@[simp] theorem State.setRb_pc (v : Word) : (s.setRb v).pc = s.pc := rfl
@[simp] theorem State.setRb_rb (v : Word) : (s.setRb v).rb = v := rfl
@[simp] theorem State.setRb_mem (v : Word) : (s.setRb v).mem = s.mem := rfl
@[simp] theorem State.setRb_inq (v : Word) : (s.setRb v).inq = s.inq := rfl
@[simp] theorem State.setRb_outq (v : Word) : (s.setRb v).outq = s.outq := rfl
@[simp] theorem State.setRb_fault (v : Word) : (s.setRb v).fault = s.fault := rfl

@[simp] theorem State.setMem_pc (m : Memory) : (s.setMem m).pc = s.pc := rfl
@[simp] theorem State.setMem_rb (m : Memory) : (s.setMem m).rb = s.rb := rfl
@[simp] theorem State.setMem_mem (m : Memory) : (s.setMem m).mem = m := rfl
@[simp] theorem State.setMem_inq (m : Memory) : (s.setMem m).inq = s.inq := rfl
@[simp] theorem State.setMem_outq (m : Memory) : (s.setMem m).outq = s.outq := rfl
@[simp] theorem State.setMem_fault (m : Memory) : (s.setMem m).fault = s.fault := rfl

@[simp] theorem State.setInq_pc (q : List Word) : (s.setInq q).pc = s.pc := rfl
@[simp] theorem State.setInq_rb (q : List Word) : (s.setInq q).rb = s.rb := rfl
@[simp] theorem State.setInq_mem (q : List Word) : (s.setInq q).mem = s.mem := rfl
@[simp] theorem State.setInq_inq (q : List Word) : (s.setInq q).inq = q := rfl
@[simp] theorem State.setInq_outq (q : List Word) : (s.setInq q).outq = s.outq := rfl
@[simp] theorem State.setInq_fault (q : List Word) : (s.setInq q).fault = s.fault := rfl

@[simp] theorem State.setOutq_pc (q : List Word) : (s.setOutq q).pc = s.pc := rfl
@[simp] theorem State.setOutq_rb (q : List Word) : (s.setOutq q).rb = s.rb := rfl
@[simp] theorem State.setOutq_mem (q : List Word) : (s.setOutq q).mem = s.mem := rfl
@[simp] theorem State.setOutq_inq (q : List Word) : (s.setOutq q).inq = s.inq := rfl
@[simp] theorem State.setOutq_outq (q : List Word) : (s.setOutq q).outq = q := rfl
@[simp] theorem State.setOutq_fault (q : List Word) : (s.setOutq q).fault = s.fault := rfl

@[simp] theorem State.setFault_pc (f : Option Fault) : (s.setFault f).pc = s.pc := rfl
@[simp] theorem State.setFault_rb (f : Option Fault) : (s.setFault f).rb = s.rb := rfl
@[simp] theorem State.setFault_mem (f : Option Fault) : (s.setFault f).mem = s.mem := rfl
@[simp] theorem State.setFault_inq (f : Option Fault) : (s.setFault f).inq = s.inq := rfl
@[simp] theorem State.setFault_outq (f : Option Fault) : (s.setFault f).outq = s.outq := rfl
@[simp] theorem State.setFault_fault (f : Option Fault) : (s.setFault f).fault = f := rfl

@[simp] theorem State.advance_pc (n : Nat) : (s.advance n).pc = s.pc + BitVec.ofNat 64 n := rfl
@[simp] theorem State.advance_rb (n : Nat) : (s.advance n).rb = s.rb := rfl
@[simp] theorem State.advance_mem (n : Nat) : (s.advance n).mem = s.mem := rfl
@[simp] theorem State.advance_inq (n : Nat) : (s.advance n).inq = s.inq := rfl
@[simp] theorem State.advance_outq (n : Nat) : (s.advance n).outq = s.outq := rfl
@[simp] theorem State.advance_fault (n : Nat) : (s.advance n).fault = s.fault := rfl

@[simp] theorem State.store_pc (a : Nat) (v : Word) : (s.store a v).pc = s.pc := rfl
@[simp] theorem State.store_rb (a : Nat) (v : Word) : (s.store a v).rb = s.rb := rfl
@[simp] theorem State.store_mem (a : Nat) (v : Word) : (s.store a v).mem = s.mem.write a v := rfl
@[simp] theorem State.store_inq (a : Nat) (v : Word) : (s.store a v).inq = s.inq := rfl
@[simp] theorem State.store_outq (a : Nat) (v : Word) : (s.store a v).outq = s.outq := rfl
@[simp] theorem State.store_fault (a : Nat) (v : Word) : (s.store a v).fault = s.fault := rfl

@[simp] theorem State.pushOut_pc (v : Word) : (s.pushOut v).pc = s.pc := rfl
@[simp] theorem State.pushOut_rb (v : Word) : (s.pushOut v).rb = s.rb := rfl
@[simp] theorem State.pushOut_mem (v : Word) : (s.pushOut v).mem = s.mem := rfl
@[simp] theorem State.pushOut_inq (v : Word) : (s.pushOut v).inq = s.inq := rfl
@[simp] theorem State.pushOut_outq (v : Word) : (s.pushOut v).outq = s.outq ++ [v] := rfl
@[simp] theorem State.pushOut_fault (v : Word) : (s.pushOut v).fault = s.fault := rfl

@[simp] theorem State.pushIn_pc (v : Word) : (s.pushIn v).pc = s.pc := rfl
@[simp] theorem State.pushIn_rb (v : Word) : (s.pushIn v).rb = s.rb := rfl
@[simp] theorem State.pushIn_mem (v : Word) : (s.pushIn v).mem = s.mem := rfl
@[simp] theorem State.pushIn_inq (v : Word) : (s.pushIn v).inq = s.inq ++ [v] := rfl
@[simp] theorem State.pushIn_outq (v : Word) : (s.pushIn v).outq = s.outq := rfl
@[simp] theorem State.pushIn_fault (v : Word) : (s.pushIn v).fault = s.fault := rfl

@[simp] theorem takeFault_pc (f : Fault) : (takeFault s f).pc = s.pc := rfl
@[simp] theorem takeFault_rb (f : Fault) : (takeFault s f).rb = s.rb := rfl
@[simp] theorem takeFault_mem (f : Fault) : (takeFault s f).mem = s.mem := rfl
@[simp] theorem takeFault_inq (f : Fault) : (takeFault s f).inq = s.inq := rfl
@[simp] theorem takeFault_outq (f : Fault) : (takeFault s f).outq = s.outq := rfl
@[simp] theorem takeFault_fault (f : Fault) : (takeFault s f).fault = some f := rfl

@[simp] theorem raise_state (f : Fault) : (raise s f).state = takeFault s f := rfl
@[simp] theorem raise_result (f : Fault) : (raise s f).result = .faulted f := rfl
@[simp] theorem advanced_state : (advanced s).state = s := rfl
@[simp] theorem advanced_result : (advanced s).result = .advanced := rfl
@[simp] theorem conclude_ok (r : Reply) : conclude s (.ok r) = r := rfl
@[simp] theorem conclude_error (f : Fault) : conclude s (.error f) = raise s f := rfl

/-- A latch set to the cause it already holds leaves the state as it was. -/
theorem takeFault_of_latched {f : Fault} (h : s.fault = some f) : takeFault s f = s := by
  cases s
  simp_all [takeFault, State.setFault]

/-- A core is terminated exactly when `pc` is not inside memory (R187). -/
theorem State.terminated_iff : s.terminated = true ↔ s.mem.len ≤ s.pc.toNat := by
  simp [State.terminated]

theorem State.not_terminated_iff : s.terminated = false ↔ s.pc.toNat < s.mem.len := by
  simp [State.terminated]

end Sys2Proof.Machine
end

