-- ==== Sys2Proof/Laws/Memory.lean ====
section
/-!
SUPPORT. The memory controller (20_memory.md R52, R53): a read after a write, the length after a write, and the canonical
form, which every memory operation keeps.
-/

namespace Sys2Proof.Machine

/-! ### Lists of cells -/

theorem lookupCell_insertCell (a b : Nat) (v : Word) (l : List (Nat × Word)) (h : ∀ c ∈ l, c.1 ≠ a) :
    lookupCell b (insertCell a v l) = if b = a then v else lookupCell b l := by
  induction l with
  | nil => simp [insertCell, lookupCell, eq_comm]
  | cons c cs ih =>
    have hc : c.1 ≠ a := h c (by simp)
    have ih := ih (fun d hd => h d (by simp [hd]))
    unfold insertCell
    split
    · simp [lookupCell, eq_comm]
    · simp only [lookupCell, ih]
      by_cases hb : b = a
      · subst hb
        simp [hc]
      · simp [hb]

theorem lookupCell_filter {p : Nat × Word → Bool} (b : Nat) (l : List (Nat × Word))
    (h : ∀ c ∈ l, c.1 = b → p c = true) : lookupCell b (l.filter p) = lookupCell b l := by
  induction l with
  | nil => rfl
  | cons c cs ih =>
    have ih := ih (fun d hd => h d (by simp [hd]))
    by_cases hp : p c = true
    · simp [hp, lookupCell, ih]
    · have hc : c.1 ≠ b := fun e => hp (h c (by simp) e)
      simp [hp, lookupCell, hc, ih]

theorem lookupCell_eq_zero (b : Nat) (l : List (Nat × Word)) (h : ∀ c ∈ l, c.1 ≠ b) : lookupCell b l = 0 := by
  induction l with
  | nil => rfl
  | cons c cs ih =>
    simp [lookupCell, h c (by simp), ih (fun d hd => h d (by simp [hd]))]

theorem mem_insertCell {a : Nat} {v : Word} {l : List (Nat × Word)} {c : Nat × Word}
    (h : c ∈ insertCell a v l) : c = (a, v) ∨ c ∈ l := by
  induction l with
  | nil => simpa [insertCell] using h
  | cons d ds ih =>
    unfold insertCell at h
    split at h
    · simpa using h
    · rcases List.mem_cons.mp h with rfl | h
      · simp
      · rcases ih h with h | h <;> simp [h]

theorem insertCell_sorted {a : Nat} {v : Word} {l : List (Nat × Word)}
    (hs : l.Pairwise (fun x y => x.1 < y.1)) (h : ∀ c ∈ l, c.1 ≠ a) :
    (insertCell a v l).Pairwise (fun x y => x.1 < y.1) := by
  induction l with
  | nil => simp [insertCell]
  | cons c cs ih =>
    have ⟨hc, hcs⟩ := List.pairwise_cons.mp hs
    have hne : c.1 ≠ a := h c (by simp)
    unfold insertCell
    split
    · rename_i hlt
      refine List.pairwise_cons.mpr ⟨fun d hd => ?_, hs⟩
      rcases List.mem_cons.mp hd with rfl | hd
      · exact hlt
      · exact hlt.trans (hc d hd)
    · rename_i hlt
      refine List.pairwise_cons.mpr ⟨fun d hd => ?_, ih hcs (fun d hd => h d (by simp [hd]))⟩
      rcases mem_insertCell hd with rfl | hd
      · show c.1 < a
        omega
      · exact hc d hd

/-! ### Reads and writes -/

/-- A read at or beyond `mem_len` is 0 (R52). -/
theorem Memory.read_of_len_le {m : Memory} {a : Nat} (h : m.len ≤ a) : m.read a = 0 := by
  simp [Memory.read, Nat.not_lt.mpr h]

/-- The length after a write (R53). -/
@[simp] theorem Memory.write_len (m : Memory) (a : Nat) (v : Word) : (m.write a v).len = max m.len (a + 1) := rfl

theorem Memory.mem_others {m : Memory} {a : Nat} {c : Nat × Word} :
    c ∈ m.others a ↔ c ∈ m.cells ∧ c.1 ≠ a ∧ c.1 < m.len := by
  simp [Memory.others]

/-- The cells of a written memory, read by address. -/
theorem Memory.lookupCell_write (m : Memory) (a : Nat) (v : Word) (b : Nat) :
    lookupCell b (m.write a v).cells = if b = a then v else lookupCell b (m.others a) := by
  have hne : ∀ c ∈ m.others a, c.1 ≠ a := fun c hc => (Memory.mem_others.mp hc).2.1
  unfold Memory.write
  split
  · rename_i hv
    split
    · rename_i hb
      rw [hb, hv, lookupCell_eq_zero a _ hne]
    · rfl
  · exact lookupCell_insertCell a b v _ hne

theorem Memory.lookupCell_others {m : Memory} {a b : Nat} (hb : b ≠ a) :
    lookupCell b (m.others a) = m.read b := by
  unfold Memory.read
  split
  · rename_i hl
    exact lookupCell_filter b _ (by intro c _ e; simp [e, hb, hl])
  · exact lookupCell_eq_zero b _ (fun c hc e => by have := (Memory.mem_others.mp hc).2.2; omega)

/-- Reading back after a write (R53, R54), in every memory. -/
theorem Memory.read_write (m : Memory) (a : Nat) (v : Word) (b : Nat) :
    (m.write a v).read b = if b = a then v else m.read b := by
  by_cases hb : b = a
  · subst hb
    simp [Memory.read, Memory.lookupCell_write]
  · rw [if_neg hb]
    by_cases hl : b < max m.len (a + 1)
    · simp only [Memory.read, Memory.write_len, hl, if_true, Memory.lookupCell_write, hb, if_false,
        Memory.lookupCell_others hb]
    · rw [Memory.read_of_len_le (by simpa using hl), Memory.read_of_len_le (by omega)]

@[simp] theorem Memory.read_write_self (m : Memory) (a : Nat) (v : Word) : (m.write a v).read a = v := by
  simp [Memory.read_write]

theorem Memory.read_write_of_ne (m : Memory) {a b : Nat} (v : Word) (h : b ≠ a) :
    (m.write a v).read b = m.read b := by
  simp [Memory.read_write, h]

/-- The length never decreases (R54). -/
theorem Memory.len_le_write_len (m : Memory) (a : Nat) (v : Word) : m.len ≤ (m.write a v).len := by
  simp

/-! ### The canonical form -/

/-- A write below 2^63 keeps the canonical form. -/
theorem Memory.write_wf {m : Memory} (h : m.wf) {a : Nat} (ha : a < 2 ^ 63) (v : Word) : (m.write a v).wf := by
  obtain ⟨hs, hc, hl⟩ := h
  have hos : (m.others a).Pairwise (fun x y => x.1 < y.1) := hs.filter _
  have hoc : ∀ c ∈ m.others a, c.2 ≠ 0 ∧ c.1 < max m.len (a + 1) := by
    intro c hm
    have ⟨hmem, _, hlt⟩ := Memory.mem_others.mp hm
    exact ⟨(hc c hmem).1, by omega⟩
  refine ⟨?_, ?_, by rw [Memory.write_len]; omega⟩
  · unfold Memory.write
    split
    · exact hos
    · exact insertCell_sorted hos (fun c hm => (Memory.mem_others.mp hm).2.1)
  · unfold Memory.write
    split
    · exact hoc
    · rename_i hv
      intro c hm
      rcases mem_insertCell hm with rfl | hm
      · exact ⟨hv, by show a < max m.len (a + 1); omega⟩
      · exact hoc c hm

/-- Writing a list of words below 2^63 keeps the canonical form. -/
theorem Memory.writeList_wf {m : Memory} (h : m.wf) (ws : List Word) (a : Nat) (ha : a + ws.length ≤ 2 ^ 63) :
    (m.writeList a ws).wf := by
  induction ws generalizing m a with
  | nil => exact h
  | cons w ws ih =>
    simp only [List.length_cons] at ha
    exact ih (Memory.write_wf h (by omega) w) (a + 1) (by omega)

theorem Memory.writeList_len (m : Memory) (ws : List Word) (a : Nat) (ha : m.len = a) :
    (m.writeList a ws).len = a + ws.length := by
  induction ws generalizing m a with
  | nil => simpa [Memory.writeList] using ha
  | cons w ws ih =>
    rw [Memory.writeList, ih (m.write a w) (a + 1) (by simp [ha])]
    simp only [List.length_cons]
    omega

/-- Reading back a list of words: inside it the word written, elsewhere what was there. -/
theorem Memory.read_writeList (m : Memory) (ws : List Word) (a b : Nat) :
    (m.writeList a ws).read b = if a ≤ b then (ws[b - a]?).getD (m.read b) else m.read b := by
  induction ws generalizing m a with
  | nil => simp [Memory.writeList]
  | cons w ws ih =>
    rw [Memory.writeList, ih, Memory.read_write]
    by_cases h : a + 1 ≤ b
    · have hk : b - a = (b - (a + 1)) + 1 := by omega
      have hab : a ≤ b := by omega
      have hne : b ≠ a := by omega
      simp only [h, hab, hne, if_true, if_false, hk, List.getElem?_cons_succ]
    · by_cases hba : b = a
      · subst hba
        simp
      · have hab : ¬ a ≤ b := by omega
        simp only [h, hab, hba, if_false]

/-- The memory after power-up is in canonical form. -/
theorem reset_mem_wf : State.reset.mem.wf := by decide

end Sys2Proof.Machine
end

