-- ==== Sys2Proof/Laws/Operands.lean ====
section
/-!
SUPPORT. The operand resolver in the terms of Safety.lean: what resolving a source or a destination answers, in every state
(40_operand_resolver.md R111 to R114).
-/

namespace Sys2Proof.Machine

theorem addressFault_eq_none {z : Int} : addressFault z = none ↔ InAddressSpace z := by
  unfold addressFault
  split
  · exact iff_of_true rfl ‹_›
  · exact iff_of_false (by simp) ‹_›

theorem addressFault_cases (z : Int) : addressFault z = none ∨ addressFault z = some .invalidAddress := by
  unfold addressFault
  split <;> simp

/-- The address check (R111): inside the address space the exact integer, outside it InvalidAddress. -/
theorem effectiveAddress_eq (s : State) (o : Operand) :
    effectiveAddress s o =
      match addressFault (addressInt s o) with
      | none => .ok (addressInt s o).toNat
      | some f => .error f := by
  have hm : (addrMax : Int) = 2 ^ 63 - 1 := by decide
  unfold effectiveAddress addressFault
  rw [hm]
  by_cases h : InAddressSpace (addressInt s o)
  · rw [if_pos h]
    exact if_neg (by omega)
  · rw [if_neg h]
    exact if_pos (by omega)

/-- A source parameter answers its value, or the fault it raises (R112). -/
theorem readParam_eq (s : State) (o : Operand) :
    readParam s o =
      match sourceFault s o with
      | none => .ok (sourceValue s o)
      | some f => .error f := by
  obtain ⟨mode, raw⟩ := o
  cases mode with
  | illegal d => rfl
  | immediate => rfl
  | position =>
    simp only [readParam, effectiveAddress_eq, addressInt, sourceFault, sourceValue, operandAddress]
    cases addressFault raw.toInt <;> rfl
  | relative =>
    simp only [readParam, effectiveAddress_eq, addressInt, sourceFault, sourceValue, operandAddress]
    cases addressFault (s.rb.toInt + raw.toInt) <;> rfl

/-- A destination parameter on this hardware answers its address, or the fault it raises (R113). -/
theorem writeAddr_eq (s : State) (o : Operand) :
    writeAddr hardware s o =
      match destFault s o with
      | none => .ok (operandAddress s o)
      | some f => .error f := by
  have capped : ∀ z : Int, addressFault z = none → ¬ hardware.memCap ≤ z.toNat := by
    intro z hz
    have := addressFault_eq_none.mp hz
    show ¬ 2 ^ 63 ≤ z.toNat
    omega
  obtain ⟨mode, raw⟩ := o
  cases mode with
  | illegal d => rfl
  | immediate => rfl
  | position =>
    simp only [writeAddr, effectiveAddress_eq, addressInt, destFault, operandAddress]
    cases h : addressFault raw.toInt with
    | none => simp only [if_neg (capped _ h)]
    | some f => rfl
  | relative =>
    simp only [writeAddr, effectiveAddress_eq, addressInt, destFault, operandAddress]
    cases h : addressFault (s.rb.toInt + raw.toInt) with
    | none => simp only [if_neg (capped _ h)]
    | some f => rfl

/-- A destination address is inside the address space and below the capacity (R113). -/
theorem writeAddr_ok {c : Config} {s : State} {o : Operand} {a : Nat} (h : writeAddr c s o = .ok a) :
    a < 2 ^ 63 ∧ a < c.memCap := by
  have checked : (match effectiveAddress s o with
      | .ok a => if c.memCap ≤ a then .error .capacityExceeded else .ok a
      | .error f => .error f) = (Except.ok a : Except Fault Nat) → a < 2 ^ 63 ∧ a < c.memCap := by
    intro h
    rw [effectiveAddress_eq] at h
    cases hz : addressFault (addressInt s o) with
    | some f => simp [hz] at h
    | none =>
      have hin := addressFault_eq_none.mp hz
      simp only [hz] at h
      split at h
      · simp at h
      · simp only [Except.ok.injEq] at h
        omega
  unfold writeAddr at h
  split at h
  · simp at h
  · simp at h
  · exact checked h
  · exact checked h

/-- A destination address is never 2^63 or more where no fault is raised. -/
theorem operandAddress_lt {s : State} {o : Operand} (h : destFault s o = none) : operandAddress s o < 2 ^ 63 := by
  have := writeAddr_eq s o
  rw [h] at this
  exact (writeAddr_ok this).1

/-- Resolution looks at `rb` and memory only (R115). -/
theorem readParam_congr {s t : State} (hr : s.rb = t.rb) (hm : s.mem = t.mem) (o : Operand) :
    readParam s o = readParam t o := by
  unfold readParam effectiveAddress addressInt
  rw [hr, hm]

theorem writeAddr_congr {s t : State} (hr : s.rb = t.rb) (c : Config) (o : Operand) :
    writeAddr c s o = writeAddr c t o := by
  unfold writeAddr effectiveAddress addressInt
  rw [hr]

/-- The causes a source can raise are among those of this hardware. -/
theorem sourceFault_latchOk (s : State) (o : Operand) : LatchOk (sourceFault s o) := by
  obtain ⟨mode, raw⟩ := o
  cases mode with
  | position | relative => exact (addressFault_cases _).elim (fun h => .inl h) (fun h => .inr (.inl h))
  | immediate | illegal d => simp [sourceFault, LatchOk]

/-- The causes a destination can raise are among those of this hardware. -/
theorem destFault_latchOk (s : State) (o : Operand) : LatchOk (destFault s o) := by
  obtain ⟨mode, raw⟩ := o
  cases mode with
  | position | relative => exact (addressFault_cases _).elim (fun h => .inl h) (fun h => .inr (.inl h))
  | immediate | illegal d => simp [destFault, LatchOk]

end Sys2Proof.Machine
end

