-- ==== Sys2Proof/Laws/Bodies.lean ====
section
/-!
SUPPORT. The shared bodies of the instructions: everything each can answer, so that later proofs cite this and do not unfold a
body again.
-/

namespace Sys2Proof.Machine

/-- Every reply of an F3 body under any configuration: a fault, or the store and the advance. -/
theorem storeResult_cases (c : Config) (g : Word → Word → Except Fault Word) (a b d : Operand) (s : State) :
    (∃ f, storeResult c g a b d s = raise s f) ∨
    (∃ x y p r, readParam s a = .ok x ∧ readParam s b = .ok y ∧ writeAddr c s d = .ok p ∧ g x y = .ok r ∧
      storeResult c g a b d s = advanced ((s.store p r).advance 4)) := by
  unfold storeResult
  cases hx : readParam s a with
  | error f => exact .inl ⟨f, rfl⟩
  | ok x =>
    cases hy : readParam s b with
    | error f => exact .inl ⟨f, rfl⟩
    | ok y =>
      cases hp : writeAddr c s d with
      | error f => exact .inl ⟨f, rfl⟩
      | ok p =>
        cases hr : g x y with
        | error f => exact .inl ⟨f, by simp [bind, Except.bind, hr]⟩
        | ok r => exact .inr ⟨x, y, p, r, rfl, rfl, rfl, hr, by simp [bind, Except.bind, hr, pure, Except.pure]⟩

/-- An F3 body on this hardware, in the terms of Safety.lean (R114, R130). -/
theorem storeResult_eq (g : Word → Word → Except Fault Word) (a b d : Operand) (s : State) :
    storeResult hardware g a b d s =
      match firstFault [sourceFault s a, sourceFault s b, destFault s d] with
      | some f => raise s f
      | none =>
        match g (sourceValue s a) (sourceValue s b) with
        | .ok r => advanced ((s.store (operandAddress s d) r).advance 4)
        | .error f => raise s f := by
  unfold storeResult
  rw [readParam_eq, readParam_eq, writeAddr_eq]
  cases sourceFault s a <;> cases sourceFault s b <;> cases destFault s d <;>
    simp only [firstFault, bind, Except.bind, conclude_error]
  cases g (sourceValue s a) (sourceValue s b) <;> rfl

/-- The ALU wraps on this hardware (R9). -/
@[simp] theorem aluResult_hardware (z : Int) : aluResult hardware z = .ok (wrap64 z) := rfl

/-- `in` on this hardware (R140). -/
theorem inReply_eq (d : Operand) (s : State) :
    inReply hardware d s =
      match destFault s d with
      | some f => raise s f
      | none =>
        match s.inq with
        | [] => ⟨s, .paused⟩
        | v :: rest => advanced (((s.setInq rest).store (operandAddress s d) v).advance 2) := by
  unfold inReply
  rw [writeAddr_eq]
  cases destFault s d <;> simp only [bind, Except.bind, conclude_error]
  cases s.inq <;> rfl

/-- `in` under any configuration: a fault, a pause that changes nothing, or one word consumed (R140). -/
theorem inReply_cases (c : Config) (d : Operand) (s : State) :
    (∃ f, writeAddr c s d = .error f ∧ inReply c d s = raise s f) ∨
    (∃ p, writeAddr c s d = .ok p ∧ s.inq = [] ∧ inReply c d s = ⟨s, .paused⟩) ∨
    (∃ p v rest, writeAddr c s d = .ok p ∧ s.inq = v :: rest ∧
      inReply c d s = advanced (((s.setInq rest).store p v).advance 2)) := by
  unfold inReply
  cases hp : writeAddr c s d with
  | error f => exact .inl ⟨f, rfl, rfl⟩
  | ok p =>
    cases hq : s.inq with
    | nil => exact .inr (.inl ⟨p, rfl, rfl, rfl⟩)
    | cons v rest => exact .inr (.inr ⟨p, v, rest, rfl, rfl, rfl⟩)

/-- `out` (R141). -/
theorem outReply_eq (a : Operand) (s : State) :
    outReply a s =
      match sourceFault s a with
      | some f => raise s f
      | none => advanced ((s.pushOut (sourceValue s a)).advance 2) := by
  unfold outReply
  rw [readParam_eq]
  cases sourceFault s a <;> rfl

/-- A conditional jump (R116, R152). -/
theorem jumpIf_eq (taken : Word → Bool) (a t : Operand) (s : State) :
    jumpIf taken a t s =
      match firstFault [sourceFault s a, sourceFault s t,
          targetFault (taken (sourceValue s a) = true) (sourceValue s t)] with
      | some f => raise s f
      | none =>
        if taken (sourceValue s a) then advanced (s.setPc (sourceValue s t)) else advanced (s.advance 3) := by
  unfold jumpIf
  rw [readParam_eq, readParam_eq]
  cases sourceFault s a <;> cases sourceFault s t <;> simp only [firstFault, bind, Except.bind, conclude_error]
  simp only [targetFault]
  cases taken (sourceValue s a)
  · simp [pure, Except.pure, firstFault]
  · by_cases h : (sourceValue s t).toInt < 0 <;> simp [h, pure, Except.pure, firstFault]

/-- `jt` (R150). -/
theorem jtReply_eq (a t : Operand) (s : State) :
    jtReply a t s =
      match instrFault s (.jt a t) with
      | some f => raise s f
      | none => if sourceValue s a ≠ 0 then advanced (s.setPc (sourceValue s t)) else advanced (s.advance 3) := by
  simp [jtReply, jumpIf_eq, instrFault, isTrue, targetFault]

/-- `jf` (R151). -/
theorem jfReply_eq (a t : Operand) (s : State) :
    jfReply a t s =
      match instrFault s (.jf a t) with
      | some f => raise s f
      | none => if sourceValue s a = 0 then advanced (s.setPc (sourceValue s t)) else advanced (s.advance 3) := by
  simp [jfReply, jumpIf_eq, instrFault, isTrue, targetFault]

/-- `arb` on this hardware (R170). -/
theorem arbReply_eq (a : Operand) (s : State) :
    arbReply hardware a s =
      match sourceFault s a with
      | some f => raise s f
      | none => advanced ((s.setRb (wrap64 (s.rb.toInt + (sourceValue s a).toInt))).advance 2) := by
  unfold arbReply
  rw [readParam_eq]
  cases sourceFault s a <;> rfl

/-- `arb` under any configuration: a fault, or the new relative base (R170). -/
theorem arbReply_cases (c : Config) (a : Operand) (s : State) :
    (∃ f, arbReply c a s = raise s f) ∨
    (∃ x r, readParam s a = .ok x ∧ aluResult c (s.rb.toInt + x.toInt) = .ok r ∧
      arbReply c a s = advanced ((s.setRb r).advance 2)) := by
  unfold arbReply
  cases hx : readParam s a with
  | error f => exact .inl ⟨f, rfl⟩
  | ok x =>
    cases hr : aluResult c (s.rb.toInt + x.toInt) with
    | error f => exact .inl ⟨f, by simp [bind, Except.bind, hr]⟩
    | ok r => exact .inr ⟨x, r, rfl, hr, by simp [bind, Except.bind, hr, pure, Except.pure]⟩

/-- `wrap64` gives the word congruent to its argument (R12). -/
theorem wrap64_eq_of_dvd {w : Word} {z : Int} (h : (2 ^ 64 : Int) ∣ w.toInt - z) : wrap64 z = w := by
  obtain ⟨k, hk⟩ := h
  have hz : z = w.toInt + 2 ^ 64 * (-k) := by linarith
  rw [hz, wrap64, BitVec.ofInt_add, BitVec.ofInt_mul, BitVec.ofInt_toInt]
  have h0 : BitVec.ofInt 64 (2 ^ 64) = 0 := by decide
  rw [h0]
  simp

end Sys2Proof.Machine
end

