-- ==== Sys2Proof/Laws/Decode.lean ====
section
/-!
SUPPORT. Small facts of the decoder's and encoder's pieces (30_encoding.md R81, R84, R95).
-/

namespace Sys2Proof

@[simp] theorem Mode.ofDigit_digit (m : Mode) : Mode.ofDigit m.digit = m := by
  cases m with
  | illegal d =>
    simp only [Mode.digit, Mode.ofDigit]
    congr 1
    ext
    simp [Fin.ofNat, Nat.mod_eq_of_lt d.isLt]
  | position => rfl
  | immediate => rfl
  | relative => rfl

theorem Mode.digit_ofDigit : ∀ n < 10, (Mode.ofDigit n).digit = n := by decide

theorem Mode.digit_lt (m : Mode) : m.digit < 10 := by
  cases m with
  | illegal d =>
    show d.val + 3 < 10
    omega
  | position => decide
  | immediate => decide
  | relative => decide

theorem Instr.modeDigit_lt (i : Instr) (k : Nat) : i.modeDigit k < 10 := by
  unfold Instr.modeDigit
  split
  · exact Mode.digit_lt _
  · omega

theorem Instr.opcode_lt (i : Instr) : i.opcode < 100 := by
  cases i <;> simp [Instr.opcode]

/-- An encoded instruction word is below 10^5, so it is non-negative as a word. -/
theorem Instr.wordValue_lt (i : Instr) : i.wordValue < 100000 := by
  have := i.modeDigit_lt 0
  have := i.modeDigit_lt 1
  have := i.modeDigit_lt 2
  have := i.opcode_lt
  unfold Instr.wordValue
  omega

/-- Every length is 1 to 4 words (R80). -/
theorem Instr.length_bounds (i : Instr) : 1 ≤ i.length ∧ i.length ≤ 4 := by
  cases i <;> simp [Instr.length]

end Sys2Proof
end

