-- ==== Sys2Proof/Laws/Engine.lean ====
section
/-!
SUPPORT. The engine: what an instruction and a step can do, said once (46_host_interface.md R180 to R182).
-/

namespace Sys2Proof.Machine

/-- `exec` is the state part of the rule with its result, on this hardware. -/
theorem exec_eq (i : Instr) (s : State) : exec i s = .next (execReply hardware i s).state := by
  cases i <;> rfl

/-- `step` is the state part of the step with its result, on this hardware. -/
theorem step_eq (s : State) : step s = .next (stepReply hardware s).state := by
  unfold step stepReply
  cases nextAction s <;> simp [exec_eq]

/-- Every way an instruction can end, under any configuration. -/
theorem execReply_cases (c : Config) (i : Instr) (s : State) :
    (∃ f, execReply c i s = raise s f) ∨
    (∃ d p, i = .inp d ∧ writeAddr c s d = .ok p ∧ s.inq = [] ∧ execReply c i s = ⟨s, .paused⟩) ∨
    (i = .hlt ∧ execReply c i s = ⟨s.setPc pcHalt, .halted⟩) ∨
    (∃ d p r, i.length = 4 ∧ d ∈ i.params ∧ writeAddr c s d = .ok p ∧
      execReply c i s = advanced ((s.store p r).advance 4)) ∨
    (∃ d p v rest, i = .inp d ∧ writeAddr c s d = .ok p ∧ s.inq = v :: rest ∧
      execReply c i s = advanced (((s.setInq rest).store p v).advance 2)) ∨
    (∃ a x, i = .out a ∧ readParam s a = .ok x ∧ execReply c i s = advanced ((s.pushOut x).advance 2)) ∨
    (∃ a t x, (i = .jt a t ∨ i = .jf a t) ∧ readParam s t = .ok x ∧ 0 ≤ x.toInt ∧
      execReply c i s = advanced (s.setPc x)) ∨
    (∃ a t, (i = .jt a t ∨ i = .jf a t) ∧ execReply c i s = advanced (s.advance 3)) ∨
    (∃ a r, i = .arb a ∧ execReply c i s = advanced ((s.setRb r).advance 2)) := by
  have jump : ∀ (taken : Word → Bool) (a t : Operand),
      (∃ f, jumpIf taken a t s = raise s f) ∨
      (∃ x, readParam s t = .ok x ∧ 0 ≤ x.toInt ∧ jumpIf taken a t s = advanced (s.setPc x)) ∨
      jumpIf taken a t s = advanced (s.advance 3) := by
    intro taken a t
    unfold jumpIf
    cases hx : readParam s a with
    | error f => exact .inl ⟨f, rfl⟩
    | ok x =>
      cases ht : readParam s t with
      | error f => exact .inl ⟨f, rfl⟩
      | ok v =>
        simp only [bind, Except.bind]
        by_cases htk : taken x = true
        · by_cases hv : v.toInt < 0
          · exact .inl ⟨.invalidAddress, by simp [htk, hv]⟩
          · exact .inr (.inl ⟨v, rfl, by omega, by simp [htk, hv, pure, Except.pure]⟩)
        · exact .inr (.inr (by simp [htk, pure, Except.pure]))
  cases i with
  | add a b d =>
    rcases storeResult_cases c (fun x y => aluResult c (x.toInt + y.toInt)) a b d s with
      ⟨f, h⟩ | ⟨x, y, p, r, _, _, hp, _, h⟩
    · exact .inl ⟨f, h⟩
    · exact .inr (.inr (.inr (.inl ⟨d, p, r, rfl, by simp [Instr.params], hp, h⟩)))
  | mul a b d =>
    rcases storeResult_cases c (fun x y => aluResult c (x.toInt * y.toInt)) a b d s with
      ⟨f, h⟩ | ⟨x, y, p, r, _, _, hp, _, h⟩
    · exact .inl ⟨f, h⟩
    · exact .inr (.inr (.inr (.inl ⟨d, p, r, rfl, by simp [Instr.params], hp, h⟩)))
  | lt a b d =>
    rcases storeResult_cases c (fun x y => .ok (truthWord (lessThan x y))) a b d s with
      ⟨f, h⟩ | ⟨x, y, p, r, _, _, hp, _, h⟩
    · exact .inl ⟨f, h⟩
    · exact .inr (.inr (.inr (.inl ⟨d, p, r, rfl, by simp [Instr.params], hp, h⟩)))
  | eq a b d =>
    rcases storeResult_cases c (fun x y => .ok (truthWord (equals x y))) a b d s with
      ⟨f, h⟩ | ⟨x, y, p, r, _, _, hp, _, h⟩
    · exact .inl ⟨f, h⟩
    · exact .inr (.inr (.inr (.inl ⟨d, p, r, rfl, by simp [Instr.params], hp, h⟩)))
  | inp d =>
    rcases inReply_cases c d s with ⟨f, _, h⟩ | ⟨p, hp, hq, h⟩ | ⟨p, v, rest, hp, hq, h⟩
    · exact .inl ⟨f, h⟩
    · exact .inr (.inl ⟨d, p, rfl, hp, hq, h⟩)
    · exact .inr (.inr (.inr (.inr (.inl ⟨d, p, v, rest, rfl, hp, hq, h⟩))))
  | out a =>
    show (∃ f, outReply a s = raise s f) ∨ _
    cases hx : readParam s a with
    | error f => exact .inl ⟨f, by simp [outReply, hx, bind, Except.bind]⟩
    | ok x =>
      exact .inr (.inr (.inr (.inr (.inr (.inl ⟨a, x, rfl, hx, by
        simp [execReply, outReply, hx, bind, Except.bind, pure, Except.pure]⟩)))))
  | jt a t =>
    rcases jump isTrue a t with ⟨f, h⟩ | ⟨x, hx, h0, h⟩ | h
    · exact .inl ⟨f, h⟩
    · exact .inr (.inr (.inr (.inr (.inr (.inr (.inl ⟨a, t, x, .inl rfl, hx, h0, h⟩))))))
    · exact .inr (.inr (.inr (.inr (.inr (.inr (.inr (.inl ⟨a, t, .inl rfl, h⟩)))))))
  | jf a t =>
    rcases jump (fun x => !isTrue x) a t with ⟨f, h⟩ | ⟨x, hx, h0, h⟩ | h
    · exact .inl ⟨f, h⟩
    · exact .inr (.inr (.inr (.inr (.inr (.inr (.inl ⟨a, t, x, .inr rfl, hx, h0, h⟩))))))
    · exact .inr (.inr (.inr (.inr (.inr (.inr (.inr (.inl ⟨a, t, .inr rfl, h⟩)))))))
  | arb a =>
    rcases arbReply_cases c a s with ⟨f, h⟩ | ⟨x, r, _, _, h⟩
    · exact .inl ⟨f, h⟩
    · exact .inr (.inr (.inr (.inr (.inr (.inr (.inr (.inr ⟨a, r, rfl, h⟩)))))))
  | hlt => exact .inr (.inr (.inl ⟨rfl, rfl⟩))

/-- Every way a step can go (R180), under any configuration. -/
theorem stepReply_cases (c : Config) (s : State) :
    (∃ f, s.fault = some f ∧ stepReply c s = ⟨s, .faulted f⟩) ∨
    (s.fault = none ∧ s.mem.len ≤ s.pc.toNat ∧ stepReply c s = ⟨s, .halted⟩) ∨
    (s.fault = none ∧ s.pc.toNat < s.mem.len ∧ (∃ e, fetch s = .error e) ∧
      stepReply c s = raise s .unknownOpcode) ∨
    (∃ i, s.fault = none ∧ s.pc.toNat < s.mem.len ∧ fetch s = .ok i ∧ stepReply c s = execReply c i s) := by
  unfold stepReply nextAction
  cases hf : s.fault with
  | some f => exact .inl ⟨f, rfl, rfl⟩
  | none =>
    by_cases ht : s.terminated = true
    · exact .inr (.inl ⟨rfl, s.terminated_iff.mp ht, by simp [ht]⟩)
    · have hlt := s.not_terminated_iff.mp (by simpa using ht)
      cases hi : fetch s with
      | error e => exact .inr (.inr (.inl ⟨rfl, hlt, ⟨e, rfl⟩, by simp [ht]⟩))
      | ok i => exact .inr (.inr (.inr ⟨i, rfl, hlt, rfl, by simp [ht]⟩))

/-- The memory length never decreases over a step (R54). -/
theorem stepReply_len_le (c : Config) (s : State) : s.mem.len ≤ (stepReply c s).state.mem.len := by
  rcases stepReply_cases c s with ⟨f, _, h⟩ | ⟨_, _, h⟩ | ⟨_, _, _, h⟩ | ⟨i, _, _, _, h⟩
  · simp [h]
  · simp [h]
  · simp [h]
  · rw [h]
    rcases execReply_cases c i s with ⟨f, h⟩ | ⟨d, p, _, _, _, h⟩ | ⟨_, h⟩ | ⟨d, p, r, _, _, _, h⟩ |
      ⟨d, p, v, rest, _, _, _, h⟩ | ⟨a, x, _, _, h⟩ | ⟨a, t, x, _, _, _, h⟩ | ⟨a, t, _, h⟩ | ⟨a, r, _, h⟩ <;>
      simp [h]

end Sys2Proof.Machine
end

