-- ==== Sys2Proof/Laws/Step.lean ====
section
/-!
SUPPORT. What a step finds (46_host_interface.md R180), said as conditions on the state, and where the host's test words go.
-/

namespace Sys2Proof.Machine

theorem nextAction_latched {s : State} {f : Fault} : nextAction s = .latched f ↔ s.fault = some f := by
  unfold nextAction
  cases s.fault with
  | some g => simp
  | none =>
    simp only [reduceCtorEq, iff_false]
    split
    · simp
    · split <;> simp

theorem nextAction_terminated {s : State} :
    nextAction s = .terminated ↔ s.fault = none ∧ s.mem.len ≤ s.pc.toNat := by
  unfold nextAction
  cases s.fault with
  | some g => simp
  | none =>
    rw [← s.terminated_iff]
    cases s.terminated with
    | true => simp
    | false => cases fetch s <;> simp

theorem nextAction_execute {s : State} {i : Instr} :
    nextAction s = .execute i ↔ s.fault = none ∧ s.pc.toNat < s.mem.len ∧ fetch s = .ok i := by
  unfold nextAction
  cases s.fault with
  | some g => simp
  | none =>
    rw [← s.not_terminated_iff]
    cases s.terminated with
    | true => simp
    | false => cases fetch s <;> simp

theorem nextAction_illegal {s : State} :
    nextAction s = .illegal ↔ s.fault = none ∧ s.pc.toNat < s.mem.len ∧ ∃ e, fetch s = .error e := by
  unfold nextAction
  cases s.fault with
  | some g => simp
  | none =>
    rw [← s.not_terminated_iff]
    cases s.terminated with
    | true => simp
    | false => cases fetch s <;> simp

/-- A faulted core answers its cause and stays as it is (R219). -/
theorem stepReply_of_latched (c : Config) {s : State} {f : Fault} (h : s.fault = some f) :
    stepReply c s = ⟨s, .faulted f⟩ := by
  unfold stepReply
  rw [nextAction_latched.mpr h]

/-- A terminated core answers Halted and stays as it is (R180). -/
theorem stepReply_of_terminated (c : Config) {s : State} (hf : s.fault = none) (h : s.mem.len ≤ s.pc.toNat) :
    stepReply c s = ⟨s, .halted⟩ := by
  unfold stepReply
  rw [nextAction_terminated.mpr ⟨hf, h⟩]

/-- The next step after placing an instruction executes exactly it (log entry 4). -/
theorem nextAction_withFetchWord (s : State) (nbits w : Nat) {i : Instr} (h : decodeTableWord nbits w = some i) :
    nextAction (s.withFetchWord nbits w) = .execute i := by
  have hp : placeAddress s + 3 ≤ addrMax := by
    unfold placeAddress
    split
    · assumption
    · decide
  have hmax : addrMax = 2 ^ 63 - 1 := rfl
  have hpc : (BitVec.ofNat 64 (placeAddress s)).toNat = placeAddress s := by
    rw [BitVec.toNat_ofNat]
    omega
  refine nextAction_execute.mpr ⟨rfl, ?_, ?_⟩
  · show (BitVec.ofNat 64 (placeAddress s)).toNat < _
    rw [hpc]
    simp only [State.withFetchWord, State.placeWords, Memory.writeList, Memory.write_len]
    omega
  · unfold decodeTableWord at h
    have hread : ∀ k < 4, (s.withFetchWord nbits w).mem.read (placeAddress s + k) = tableWord nbits w k := by
      intro k hk
      simp only [State.withFetchWord, State.placeWords, Memory.read_writeList]
      rw [if_pos (by omega), Nat.add_sub_cancel_left]
      match k, hk with
      | 0, _ => rfl
      | 1, _ => rfl
      | 2, _ => rfl
      | 3, _ => rfl
    have hpc' : (s.withFetchWord nbits w).pc.toNat = placeAddress s := hpc
    unfold fetch
    rw [hpc']
    have h0 := hread 0 (by omega)
    rw [Nat.add_zero] at h0
    simp only [h0, hread 1 (by omega), hread 2 (by omega), hread 3 (by omega)]
    split at h
    · rename_i heq
      rw [heq]
      simpa using h
    · simp at h

end Sys2Proof.Machine
end

