-- ==== Sys2Proof/Laws/HostOps.lean ====
section
/-!
SUPPORT. What a host call can do to a core, said once (46_host_interface.md R183 to R188).
-/

namespace Sys2Proof.Machine

/-- A call either is a step, or changes the queues alone, or stores one word at a writable address. -/
theorem hostCall_cases (c : Config) (k : HostCall) (s : State) :
    (k = .step ∧ (hostCall c k s).2 = (stepReply c s).state) ∨
    (k ≠ .step ∧ ∃ q o, (hostCall c k s).2 = (s.setInq q).setOutq o) ∨
    (k ≠ .step ∧ ∃ a v, a < 2 ^ 63 ∧ a < c.memCap ∧ (hostCall c k s).2 = s.store a v) := by
  cases k with
  | step => exact .inl ⟨rfl, rfl⟩
  | pushInput v => exact .inr (.inl ⟨by simp, s.inq ++ [v], s.outq, rfl⟩)
  | popOutput =>
    refine .inr (.inl ⟨by simp, ?_⟩)
    simp only [hostCall, popOutput]
    split
    · exact ⟨s.inq, s.outq, rfl⟩
    · exact ⟨s.inq, _, rfl⟩
  | outputDrain => exact .inr (.inl ⟨by simp, s.inq, [], rfl⟩)
  | isTerminated => exact .inr (.inl ⟨by simp, s.inq, s.outq, rfl⟩)
  | clone => exact .inr (.inl ⟨by simp, s.inq, s.outq, rfl⟩)
  | setMemory a v =>
    have hm : (addrMax : Int) = 2 ^ 63 - 1 := by decide
    simp only [hostCall, setMemory, hm]
    by_cases h1 : a < 0 ∨ 2 ^ 63 - 1 < a
    · rw [if_pos h1]
      exact .inr (.inl ⟨by simp, s.inq, s.outq, rfl⟩)
    · rw [if_neg h1]
      by_cases h2 : c.memCap ≤ a.toNat
      · rw [if_pos h2]
        exact .inr (.inl ⟨by simp, s.inq, s.outq, rfl⟩)
      · rw [if_neg h2]
        exact .inr (.inr ⟨by simp, a.toNat, v, by omega, by omega, rfl⟩)

/-- The length after a call is at least the length before it (R54). -/
theorem hostCall_len_le (c : Config) (k : HostCall) (s : State) : s.mem.len ≤ (hostCall c k s).2.mem.len := by
  rcases hostCall_cases c k s with ⟨_, h⟩ | ⟨_, q, o, h⟩ | ⟨_, a, v, _, _, h⟩ <;> rw [h]
  · exact stepReply_len_le c s
  · exact le_refl _
  · exact s.mem.len_le_write_len a v

/-- More fuel changes nothing once `run` has returned (R181). -/
theorem runFuel_add {c : Config} (n k : Nat) (s : State) (r : Reply) (h : runFuel c n s = some r) :
    runFuel c (n + k) s = some r := by
  induction n generalizing s with
  | zero => simp [runFuel] at h
  | succ n ih =>
    rw [Nat.succ_add]
    simp only [runFuel] at h ⊢
    split at h
    · rename_i hr
      rw [if_pos hr]
      exact ih _ h
    · rename_i hr
      rw [if_neg hr]
      exact h

end Sys2Proof.Machine
end

