-- ==== Sys2Proof/Laws/Loader.lean ====
section
/-!
SUPPORT. Load and the text loader's pieces (70_reset_and_hazards.md R250, R252).
-/

namespace Sys2Proof.Machine

/-- The image's length is the memory's (R250). -/
@[simp] theorem imageMemory_len (program : List Word) : (imageMemory program).len = program.length := by
  simp [imageMemory, Memory.writeList_len]

/-- Word k of the image is at address k; beyond the image memory reads 0 (R250, R52). -/
theorem imageMemory_read (program : List Word) (k : Nat) : (imageMemory program).read k = program.getD k 0 := by
  rw [imageMemory, Memory.read_writeList]
  simp [Memory.read, List.getD]

/-- An image that fits the address space makes a canonical memory. -/
theorem imageMemory_wf (program : List Word) (h : program.length ≤ 2 ^ 63) : (imageMemory program).wf :=
  Memory.writeList_wf (by decide) _ _ (by omega)

/-- A text with no comma is one token. -/
theorem splitCommas_of_no_comma (t : List Char) (h : ∀ ch ∈ t, ch ≠ ',') : splitCommas t = [t] := by
  induction t with
  | nil => rfl
  | cons c cs ih => rw [splitCommas, if_neg (h c (by simp)), ih (fun d hd => h d (by simp [hd]))]

/-- The token before the first comma, then the tokens after it. -/
theorem splitCommas_append (t rest : List Char) (h : ∀ ch ∈ t, ch ≠ ',') :
    splitCommas (t ++ ',' :: rest) = t :: splitCommas rest := by
  induction t with
  | nil => simp [splitCommas]
  | cons c cs ih =>
    rw [List.cons_append, splitCommas, if_neg (h c (by simp)), ih (fun d hd => h d (by simp [hd]))]

/-- A digit character has its digit's value. -/
theorem digitValue_digit : ∀ d < 10, digitValue (Char.ofNat ('0'.toNat + d)) = some d := by decide

end Sys2Proof.Machine
end

