-- ==== Sys2Proof/Laws/PerInstr.lean ====
section
/-!
SUPPORT. Statements about every instruction as syntax, made per constructor.
-/

namespace Sys2Proof.Laws.EncodedLength

/-- The encoding has as many words as the length column of 30_encoding.md R83, and its word's two lowest decimal digits
are the opcode (R81, R90, R95). -/
def Statement (i : Instr) : Prop := (encode i).length = i.length ∧ i.wordValue % 100 = i.opcode

theorem add (a b dst : Operand) : Statement (.add a b dst) :=
  ⟨rfl, by simp only [Instr.wordValue, Instr.opcode]; omega⟩
theorem mul (a b dst : Operand) : Statement (.mul a b dst) :=
  ⟨rfl, by simp only [Instr.wordValue, Instr.opcode]; omega⟩
theorem inp (dst : Operand) : Statement (.inp dst) :=
  ⟨rfl, by simp only [Instr.wordValue, Instr.opcode]; omega⟩
theorem out (a : Operand) : Statement (.out a) :=
  ⟨rfl, by simp only [Instr.wordValue, Instr.opcode]; omega⟩
theorem jt (a target : Operand) : Statement (.jt a target) :=
  ⟨rfl, by simp only [Instr.wordValue, Instr.opcode]; omega⟩
theorem jf (a target : Operand) : Statement (.jf a target) :=
  ⟨rfl, by simp only [Instr.wordValue, Instr.opcode]; omega⟩
theorem lt (a b dst : Operand) : Statement (.lt a b dst) :=
  ⟨rfl, by simp only [Instr.wordValue, Instr.opcode]; omega⟩
theorem eq (a b dst : Operand) : Statement (.eq a b dst) :=
  ⟨rfl, by simp only [Instr.wordValue, Instr.opcode]; omega⟩
theorem arb (a : Operand) : Statement (.arb a) :=
  ⟨rfl, by simp only [Instr.wordValue, Instr.opcode]; omega⟩
theorem hlt : Statement .hlt :=
  ⟨rfl, by simp only [Instr.wordValue, Instr.opcode]; omega⟩

end Sys2Proof.Laws.EncodedLength
end

