-- ==== Sys2Proof/Machine/Assembly.lean ====
section
/-!
DEFINITION. The assembler notation of 30_encoding.md R94, as text for an instruction: the notation is the spec's own and no
part of the machine (D29); its encoding is `encode` (R95). It is printed and not read (DESIGN CHOICE, safe: log entry 15).
-/

namespace Sys2Proof.Machine

/-- The mnemonic of R83. -/
def Instr.mnemonicText : Instr → List Char
  | .add _ _ _ => ['a', 'd', 'd']
  | .mul _ _ _ => ['m', 'u', 'l']
  | .inp _ => ['i', 'n']
  | .out _ => ['o', 'u', 't']
  | .jt _ _ => ['j', 't']
  | .jf _ _ => ['j', 'f']
  | .lt _ _ _ => ['l', 't']
  | .eq _ _ _ => ['e', 'q']
  | .arb _ => ['a', 'r', 'b']
  | .hlt => ['h', 'l', 't']

/-- A parameter in the notation of R94; none for a mode digit that has no notation. -/
def operandText (o : Operand) : Option (List Char) :=
  match o.mode with
  | .position => some ('[' :: wordText o.raw ++ [']'])
  | .immediate => some ('#' :: wordText o.raw)
  | .relative =>
    some ('[' :: 'r' :: 'b' :: (if o.raw.toInt < 0 then [] else ['+']) ++ wordText o.raw ++ [']'])
  | .illegal _ => none

/-- The parameters, separated by commas. -/
def operandsText : List Operand → Option (List Char)
  | [] => some []
  | [o] => operandText o
  | o :: os =>
    match operandText o, operandsText os with
    | some t, some ts => some (t ++ ',' :: ' ' :: ts)
    | _, _ => none

/-- One line of assembly (R94). -/
def instrText (i : Instr) : Option (List Char) :=
  match i.params with
  | [] => some (Instr.mnemonicText i)
  | ps => (operandsText ps).map (fun t => Instr.mnemonicText i ++ ' ' :: t)

end Sys2Proof.Machine
end

