-- ==== Sys2Proof/Tests/Slice0.lean ====
section
/-!
SUPPORT. Tests from the vectors of 95_test_vectors.md, the worked encodings of 30_encoding.md section 6 and the worked
operands of 40_operand_resolver.md section 4; and a witness for the hypotheses of each statement.
-/

namespace Sys2Proof.Tests

open Sys2Proof.Machine

/-- The core right after `load(image, inputs)` (70_reset_and_hazards.md R250). -/
def image (ws : List Word) (inputs : List Word := []) : State :=
  { pc := 0, rb := 0, mem := imageMemory ws, inq := inputs, outq := [], fault := none }

/-- One step's reply on this hardware. -/
def one (s : State) : Reply := stepReply hardware s

/-- 2^63 - 1 and -2^63. -/
def maxWord : Word := 9223372036854775807
def minWord : Word := -9223372036854775808

/-! ### Well-formedness: an ill-formed term for each check -/

theorem test_wf_eq_relative : (Instr.eq ⟨.relative, 0⟩ ⟨.relative, 0⟩ ⟨.relative, 0⟩).wellFormed = true := by decide
theorem test_wf_source_mode : (Instr.out ⟨.illegal 0, 0⟩).wellFormed = false := by decide
theorem test_wf_dest_mode : (Instr.inp ⟨.illegal 6, 0⟩).wellFormed = false := by decide
theorem test_wf_dest_immediate : (Instr.add ⟨.position, 0⟩ ⟨.position, 0⟩ ⟨.immediate, 0⟩).wellFormed = false := by
  decide
theorem test_wf_target_mode : (Instr.jt ⟨.position, 0⟩ ⟨.illegal 2, 0⟩).wellFormed = false := by decide

/-! ### Decoding: words written out from the encoding tables (30_encoding.md R83 and section 6) -/

theorem test_decode_mul : decodeWords [1002, 4, 3, 4] = .ok (.mul ⟨.position, 4⟩ ⟨.immediate, 3⟩ ⟨.position, 4⟩) := by
  decide
theorem test_decode_add : decodeWords [1201, 2, 13, 14] = .ok (.add ⟨.relative, 2⟩ ⟨.immediate, 13⟩ ⟨.position, 14⟩) := by
  decide
theorem test_decode_lt : decodeWords [21207, 60, 100, 61] = .ok (.lt ⟨.relative, 60⟩ ⟨.immediate, 100⟩ ⟨.relative, 61⟩) := by
  decide
theorem test_decode_eq : decodeWords [1008, 100, 16, 101] = .ok (.eq ⟨.position, 100⟩ ⟨.immediate, 16⟩ ⟨.position, 101⟩) := by
  decide
theorem test_decode_in : decodeWords [203, 2] = .ok (.inp ⟨.relative, 2⟩) := by decide
theorem test_decode_out : decodeWords [104, -5] = .ok (.out ⟨.immediate, -5⟩) := by decide
theorem test_decode_jt : decodeWords [1005, 15, 0] = .ok (.jt ⟨.position, 15⟩ ⟨.immediate, 0⟩) := by decide
theorem test_decode_jf : decodeWords [1006, 101, 0] = .ok (.jf ⟨.position, 101⟩ ⟨.immediate, 0⟩) := by decide
theorem test_decode_arb : decodeWords [109, 50] = .ok (.arb ⟨.immediate, 50⟩) := by decide
theorem test_decode_hlt_ignored_digits :
    decodeWords [99] = .ok .hlt ∧ decodeWords [199] = .ok .hlt ∧ decodeWords [1099] = .ok .hlt ∧
    decodeWords [10099] = .ok .hlt ∧ decodeWords [100099] = .ok .hlt := by decide
theorem test_decode_out_ignored_digits :
    decodeWords [100104, 42] = .ok (.out ⟨.immediate, 42⟩) ∧ decodeWords [1104, 6] = .ok (.out ⟨.immediate, 6⟩) := by
  decide
theorem test_decode_illegal :
    decodeWords [0] = .error (.undefinedOpcode 0) ∧ decodeWords [98] = .error (.undefinedOpcode 98) ∧
    decodeWords [10] = .error (.undefinedOpcode 10) ∧ decodeWords [398, 0] = .error (.undefinedOpcode 98) ∧
    decodeWords [-1] = .error .negativeWord ∧ decodeWords [-101] = .error .negativeWord := by decide
theorem test_decode_bad_mode : decodeWords [301, 0, 0, 0] = .ok (.add ⟨.illegal 0, 0⟩ ⟨.position, 0⟩ ⟨.position, 0⟩) := by
  decide
/-- The largest assembled word (R88). -/
theorem test_encode_largest : encode (.eq ⟨.relative, 1⟩ ⟨.relative, 2⟩ ⟨.relative, -3⟩) = [22208, 1, 2, -3] := by decide
/-- `out [0]` is the word 4, then an operand word of zeros. -/
theorem test_decodeTableWord : decodeTableWord 8 4 = some (.out ⟨.position, 0⟩) := by decide
theorem test_decodeTableWord_operands :
    decodeTableWord 256 (1101 + 100 * 2 ^ 64 + (2 ^ 64 - 1) * 2 ^ 128 + 4 * 2 ^ 192) =
      some (.add ⟨.immediate, 100⟩ ⟨.immediate, -1⟩ ⟨.position, 4⟩) := by decide
theorem test_withFetchWord_runs_out : (one (State.reset.withFetchWord 8 4)).state.outq = [4] := by decide
theorem test_withFetchWord_runs_hlt : (one (State.reset.withFetchWord 8 99)).result = .halted := by decide
/-- 30_encoding.md R94's own example. -/
theorem test_assembly :
    instrText (.add ⟨.relative, 2⟩ ⟨.immediate, 13⟩ ⟨.position, 14⟩) =
      some ['a', 'd', 'd', ' ', '[', 'r', 'b', '+', '2', ']', ',', ' ', '#', '1', '3', ',', ' ', '[', '1', '4', ']'] := by
  decide

/-! ### Operands: 40_operand_resolver.md section 4 (`rb` = 10, `mem_len` = 15, words 12 and 13 are 5 and 7) -/

def sample : State :=
  { pc := 0, rb := 10, mem := ⟨[(12, 5), (13, 7)], 15⟩, inq := [], outq := [], fault := none }

theorem test_source_operands :
    readParam sample ⟨.position, 12⟩ = .ok 5 ∧ readParam sample ⟨.immediate, 12⟩ = .ok 12 ∧
    readParam sample ⟨.relative, 2⟩ = .ok 5 ∧ readParam sample ⟨.position, 1000⟩ = .ok 0 ∧
    readParam sample ⟨.relative, -11⟩ = .error .invalidAddress ∧ readParam sample ⟨.relative, -10⟩ = .ok 0 ∧
    readParam sample ⟨.position, -1⟩ = .error .invalidAddress ∧
    readParam sample ⟨.illegal 0, 0⟩ = .error .invalidMode ∧
    readParam (sample.setRb maxWord) ⟨.relative, 1⟩ = .error .invalidAddress := by decide
theorem test_destination_operands :
    writeAddr hardware sample ⟨.position, 14⟩ = .ok 14 ∧ writeAddr hardware sample ⟨.relative, 4⟩ = .ok 14 ∧
    writeAddr hardware sample ⟨.relative, 90⟩ = .ok 100 ∧
    writeAddr hardware sample ⟨.immediate, 14⟩ = .error .badDestinationMode ∧
    writeAddr hardware sample ⟨.position, -1⟩ = .error .invalidAddress ∧
    writeAddr hardware sample ⟨.position, maxWord⟩ = .ok (2 ^ 63 - 1) := by decide

/-! ### Instructions: one step each, from 95_test_vectors.md -/

/-- V-A10: the instruction overwrites its own word and completes with the old one. -/
theorem test_add_self : (one (image [1, 0, 0, 0, 99])).state.mem = imageMemory [2, 0, 0, 0, 99] := by decide
/-- V-A4: the sum wraps. -/
theorem test_add_wraps : (one (image [1101, maxWord, 1, 5, 99, 0])).state.mem.read 5 = minWord := by decide
/-- V-A12. -/
theorem test_mul : (one (image [1002, 4, 3, 4, 33])).state.mem = imageMemory [1002, 4, 3, 4, 99] := by decide
/-- V-A6: MAX times 2 is -2, MIN times -1 is MIN. -/
theorem test_mul_wraps :
    (one (image [1102, maxWord, 2, 5, 99, 0])).state.mem.read 5 = -2 ∧
    (one (image [1102, minWord, -1, 5, 99, 0])).state.mem.read 5 = minWord := by decide
/-- V-I1: a Paused step changes nothing. -/
theorem test_in_pauses : one (image [3, 5, 99, 0, 0, 0]) = ⟨image [3, 5, 99, 0, 0, 0], .paused⟩ := by decide
/-- V-I6: `in` grows memory with zero fill. -/
theorem test_in_grows :
    let t := (one (image [3, 10, 99] [5])).state
    t.mem = ⟨[(0, 3), (1, 10), (2, 99), (10, 5)], 11⟩ ∧ t.inq = [] ∧ t.pc = 2 := by decide
/-- V-I4: a read beyond the end outputs 0 and does not grow memory. -/
theorem test_out_beyond_end :
    (one (image [4, 1000, 99])).state.outq = [0] ∧ (one (image [4, 1000, 99])).state.mem.len = 3 := by decide
/-- V-I4. -/
theorem test_out_negative : (one (image [104, -5, 99])).state.outq = [-5] := by decide
/-- V-J2: a negative condition is true; the target is read from memory. -/
theorem test_jt_negative_condition : (one (image [5, 7, 8, 99, 104, 7, 99, -3, 4])).state.pc = 4 := by decide
/-- V-J4: a negative target of a taken jump. -/
theorem test_jt_negative_target :
    one (image [1105, 1, -1, 99]) = ⟨(image [1105, 1, -1, 99]).setFault (some .invalidAddress), .faulted .invalidAddress⟩ ∧
    (one (image [1105, 0, -1, 99])).state.pc = 3 := by decide
/-- V-J1. -/
theorem test_jf : (one (image [1106, 0, 4, 99, 104, 7, 99])).state.pc = 4 ∧
    (one (image [1106, 5, 4, 99, 104, 7, 99])).state.pc = 3 := by decide
/-- V-J5: the target parameter of a jump not taken is resolved all the same. -/
theorem test_jf_eager : (one (image [6, 3, -1, 99])).result = .faulted .invalidAddress := by decide
/-- V-C1: the comparison is signed. -/
theorem test_lt_signed :
    (one (image [1107, -1, 0, 5, 99, 7])).state.mem.read 5 = 1 ∧
    (one (image [1107, maxWord, minWord, 5, 99, 7])).state.mem.read 5 = 0 := by decide
/-- V-C1: a = b. -/
theorem test_lt_equal : (one (image [1107, 3, 3, 5, 99, 7])).state.mem.read 5 = 0 := by decide
/-- V-C1. -/
theorem test_eq : (one (image [1108, -5, -5, 5, 99, 7])).state.mem.read 5 = 1 ∧
    (one (image [1108, 0, 1, 5, 99, 7])).state.mem.read 5 = 0 := by decide
/-- V-R3: the relative base wraps. -/
theorem test_arb_wraps : (one ((image [109, 1, 99]).setRb maxWord)).state.rb = minWord := by decide
/-- V-R2. -/
theorem test_arb_position : (one (image [9, 3, 99, 12])).state.rb = 12 := by decide
/-- S1, V-R6. -/
theorem test_hlt :
    one (image [99]) = ⟨(image [99]).setPc (BitVec.ofNat 64 9223372036854775808), .halted⟩ ∧
    (one (image [99])).state.terminated = true := by decide

/-! ### Faults -/

/-- V-F1, V-F2: illegal words. -/
theorem test_unknown_opcode :
    one (image [0]) = ⟨(image [0]).setFault (some .unknownOpcode), .faulted .unknownOpcode⟩ ∧
    (one (image [-99])).result = .faulted .unknownOpcode ∧ (one (image [398, 0])).result = .faulted .unknownOpcode := by
  decide
/-- V-F3. -/
theorem test_invalid_mode :
    (one (image [30001, 0, 0, 0])).result = .faulted .invalidMode ∧
    (one (image [903, 0])).result = .faulted .invalidMode ∧
    (one (image [9005, 1, 0])).result = .faulted .invalidMode ∧
    (one (image [309, 1])).result = .faulted .invalidMode := by decide
/-- V-F4, V-I5: an immediate destination, whether or not input waits; the 3 of the unused mode digit is ignored. -/
theorem test_bad_destination :
    (one (image [11101, 1, 2, 3])).result = .faulted .badDestinationMode ∧
    (one (image [103, 5, 99])).result = .faulted .badDestinationMode ∧
    (one (image [103, 5, 99] [1])).state.inq = [1] ∧
    (one (image [30103, 0])).result = .faulted .badDestinationMode := by decide
/-- V-F5, V-F6: addresses, and the parameter order. -/
theorem test_invalid_address :
    (one (image [1, 0, 0, -1])).result = .faulted .invalidAddress ∧ (one (image [3, -1])).result = .faulted .invalidAddress ∧
    (one (image [204, -1])).result = .faulted .invalidAddress ∧
    (one (image [10001, -1, 0, 0])).result = .faulted .invalidAddress := by decide
/-- V-F8: a capacity of 16 words. -/
theorem test_capacity :
    (stepReply ⟨16, .wrap⟩ (image [1101, 3, 4, 16, 99])).result = .faulted .capacityExceeded ∧
    (stepReply ⟨16, .wrap⟩ (image [1101, 3, 4, 15, 99])).state.mem.read 15 = 7 ∧
    (stepReply ⟨16, .wrap⟩ (image [4, 16, 99])).state.outq = [0] := by decide
/-- V-A4 with ALU_OVERFLOW = fault. -/
theorem test_overflow_fault :
    stepReply ⟨2 ^ 63, .fault⟩ (image [1101, maxWord, 1, 5, 99, 0]) =
      ⟨(image [1101, maxWord, 1, 5, 99, 0]).setFault (some .arithmeticOverflow), .faulted .arithmeticOverflow⟩ := by decide

/-! ### Memory and fetch -/

/-- V-M1: off the end the step is Advanced, the next one Halted. -/
theorem test_run_off :
    (one (image [1101, 1, 1, 0])).result = .advanced ∧ (one (image [1101, 1, 1, 0])).state.mem.read 0 = 2 ∧
    (one (one (image [1101, 1, 1, 0])).state).result = .halted := by decide
/-- V-M2: operands beyond the end read as 0. -/
theorem test_operands_beyond_end : (one (image [1])).state.mem = ⟨[(0, 2)], 1⟩ ∧ (one (image [1])).state.pc = 4 := by decide
/-- Writing 0 lists nothing and still grows the store (V-M4, R53). -/
theorem test_write_zero : (Memory.write ⟨[(0, 1101)], 4⟩ 6 0) = ⟨[(0, 1101)], 7⟩ ∧
    (Memory.write ⟨[(0, 1101), (3, 6)], 4⟩ 3 0) = ⟨[(0, 1101)], 4⟩ := by decide

/-! ### Host operations and the loader -/

/-- V-H1. -/
theorem test_loader :
    parseImage ['1', '0', ',', '-', '3', '\n', ',', '9', '9', '\n'] = .ok [10, -3, 99] ∧
    parseImage ['-', '9', '2', '2', '3', '3', '7', '2', '0', '3', '6', '8', '5', '4', '7', '7', '5', '8', '0', '8'] =
      .ok [minWord] := by decide
/-- V-H2. -/
theorem test_load_errors :
    parseImage [] = .error .malformedToken ∧ parseImage ['1', ',', ',', '2'] = .error .malformedToken ∧
    parseImage ['1', ','] = .error .malformedToken ∧ parseImage ['+', '1'] = .error .malformedToken ∧
    parseImage [' ', '1'] = .error .malformedToken ∧ parseImage ['1', '.', '0'] = .error .malformedToken ∧
    parseImage ['9', '2', '2', '3', '3', '7', '2', '0', '3', '6', '8', '5', '4', '7', '7', '5', '8', '0', '8'] =
      .error .malformedToken := by decide
/-- V-H3, V-H4. -/
theorem test_pop_and_drain :
    popOutput (sample.setOutq [1, 42]) = (some 1, sample.setOutq [42]) ∧ popOutput sample = (none, sample) ∧
    outputDrain (sample.setOutq [1, 42]) = ([1, 42], sample) := by decide
/-- V-H6: growth and refusal. -/
theorem test_set_memory :
    (hostCall hardware (.setMemory 20 7) (image [1, 4, 4, 0, 99])).2.mem =
      ⟨[(0, 1), (1, 4), (2, 4), (4, 99), (20, 7)], 21⟩ ∧
    hostCall hardware (.setMemory (-1) 5) sample = (.refused .invalidAddress, sample) := by decide
/-- V-H7: memory growth ends a termination by running off the end. -/
theorem test_set_memory_unterminates :
    ((image [2, 1, 1, 0]).setPc 4).terminated = true ∧
    (hostCall hardware (.setMemory 4 99) ((image [2, 1, 1, 0]).setPc 4)).2.terminated = false := by decide
/-- V-H10: a faulted core takes input and patches, and stays faulted. -/
theorem test_faulted_core :
    (one (hostCalls hardware [.pushInput 3, .setMemory 0 99] ((image [0]).setFault (some .unknownOpcode)))).result =
      .faulted .unknownOpcode := by decide
/-- S1: `run` on a program of one `hlt`. -/
theorem test_run_hlt : (runFuel hardware 1 (image [99])).map Reply.result = some .halted := by decide

end Sys2Proof.Tests
end

