-- ==== Sys2Proof/Tests/Witnesses.lean ====
section
/-!
SUPPORT. For each statement of Certificates/Slice0/Obligations.lean that has hypotheses, a concrete state and operands that meet
them together, clause by clause, at the edges of their ranges.
-/

namespace Sys2Proof.Tests

open Sys2Proof.Machine

/-- The last address, an address beyond the end, the last word. -/
def atMax : Operand := ⟨.position, maxWord⟩
def five : Operand := ⟨.position, 12⟩
def seven : Operand := ⟨.relative, 3⟩
def badMode : Operand := ⟨.illegal 6, 0⟩
def negAddr : Operand := ⟨.position, -1⟩
def imm (w : Word) : Operand := ⟨.immediate, w⟩

theorem witness_DecodeReadsOpcodeAndModeDigits :
    IllegalWord 0 ∧ IllegalWord (-1) ∧ IllegalWord 100 ∧ IllegalWord 10 ∧ ¬ IllegalWord 99 ∧ ¬ IllegalWord 22201 ∧
    ¬ IllegalWord 9223372036854775801 ∧ ¬ IllegalWord 9 := by decide
theorem witness_UnusedDigitsAreIgnored :
    decode 104 42 0 0 = .ok (.out (imm 42)) ∧ 0 ≤ (3998104 : Word).toInt ∧
    opcodeDigits (3998104 : Word).toInt = opcodeDigits (104 : Word).toInt ∧
    ∀ k < (Instr.out (imm 42)).params.length, modeDigitOf (3998104 : Word).toInt k = modeDigitOf (104 : Word).toInt k := by
  decide
theorem witness_AssembledWordsLieInOneTo22208 :
    (Instr.eq ⟨.relative, 0⟩ ⟨.relative, 0⟩ ⟨.relative, 0⟩).wellFormed = true ∧
    (Instr.add five five five).wellFormed = true ∧ Instr.hlt.wellFormed = true := by decide

theorem witness_WriteGrowsWithZeroFill :
    (16 : Nat) ≠ 20 ∧ sample.mem.len ≤ 16 ∧ sample.mem.len ≤ 15 ∧ (12 : Nat) ≠ 20 := by decide
theorem witness_CanonicalMemoriesWithEqualWordsAreEqual :
    let m := sample.mem
    let n := ((Memory.mk [] 15).write 13 7).write 12 5
    m.wf ∧ n.wf ∧ m.len = n.len ∧ ∀ a < m.len, m.read a = n.read a := by decide
theorem witness_CapacityBoundsTheStore :
    let c : Config := ⟨16, .wrap⟩
    destFault sample ⟨.position, 16⟩ = none ∧ c.memCap ≤ operandAddress sample ⟨.position, 16⟩ ∧
    sourceFault sample five = none ∧ sourceFault sample seven = none ∧ sample.mem.len ≤ c.memCap ∧ c.memCap ≤ 16 := by decide
theorem witness_StoreIsSeenByTheNextFetch : F3Resolves sample five seven atMax ∧ F3Resolves sample five seven (⟨.position, 4⟩) := by
  decide

theorem witness_AddWritesTheWrappedSum :
    instrFault sample (.add five negAddr ⟨.immediate, 0⟩) = some .invalidAddress ∧
    instrFault sample (.add five seven ⟨.immediate, 0⟩) = some .badDestinationMode ∧
    F3Resolves sample five seven atMax ∧ IsWrapOf 12 ((sourceValue sample five).toInt + (sourceValue sample seven).toInt) ∧
    F3Resolves sample (imm maxWord) (imm 1) five ∧
    IsWrapOf minWord ((sourceValue sample (imm maxWord)).toInt + (sourceValue sample (imm 1)).toInt) := by decide
theorem witness_MulWritesTheWrappedProduct :
    instrFault sample (.mul badMode negAddr five) = some .invalidMode ∧
    F3Resolves sample five seven atMax ∧ IsWrapOf 35 ((sourceValue sample five).toInt * (sourceValue sample seven).toInt) ∧
    F3Resolves sample (imm minWord) (imm (-1)) five ∧
    IsWrapOf minWord ((sourceValue sample (imm minWord)).toInt * (sourceValue sample (imm (-1))).toInt) := by decide
theorem witness_LtWritesTheSignedComparison :
    instrFault sample (.lt five seven negAddr) = some .invalidAddress ∧ F3Resolves sample (imm (-1)) (imm 0) atMax ∧
    (sourceValue sample (imm (-1))).toInt < (sourceValue sample (imm 0)).toInt := by decide
theorem witness_EqWritesTheEquality :
    instrFault sample (.eq five seven badMode) = some .invalidMode ∧ F3Resolves sample five (imm 5) seven ∧
    (sourceValue sample five).toInt = (sourceValue sample (imm 5)).toInt := by decide
theorem witness_InReadsOneWordOrPauses :
    destFault sample ⟨.immediate, 0⟩ = some .badDestinationMode ∧ destFault sample negAddr = some .invalidAddress ∧
    destFault sample atMax = none ∧ sample.inq = [] ∧ (sample.setInq [-7, 8]).inq = -7 :: [8] ∧
    destFault (sample.setInq [-7, 8]) seven = none := by decide
theorem witness_OutAppendsToTheOutputQueue :
    sourceFault sample negAddr = some .invalidAddress ∧ sourceFault sample badMode = some .invalidMode ∧
    sourceFault sample atMax = none ∧ sourceFault sample ⟨.relative, -10⟩ = none := by decide
theorem witness_JtJumpsIfNotZero :
    instrFault sample (.jt five negAddr) = some .invalidAddress ∧
    instrFault sample (.jt five (imm (-1))) = some .invalidAddress ∧
    sourceFault sample five = none ∧ sourceFault sample (imm 0) = none ∧ sourceFault sample (imm maxWord) = none ∧
    sourceValue sample five ≠ 0 ∧ 0 ≤ (sourceValue sample (imm 0)).toInt ∧ 0 ≤ (sourceValue sample (imm maxWord)).toInt ∧
    sourceValue sample (imm 0) = 0 := by decide
theorem witness_JfJumpsIfZero :
    instrFault sample (.jf negAddr five) = some .invalidAddress ∧
    sourceFault sample (imm 0) = none ∧ sourceFault sample seven = none ∧ sourceValue sample (imm 0) = 0 ∧
    0 ≤ (sourceValue sample seven).toInt ∧ sourceFault sample five = none ∧ sourceValue sample five ≠ 0 := by decide
/-- A taken jump to -1, one not taken to -1, and taken jumps to 0, 15 (= `mem_len`) and the last address. -/
theorem witness_JumpTargetsAreCheckedWhenTaken :
    sourceFault sample five = none ∧ sourceFault sample (imm (-1)) = none ∧ sourceFault sample (imm 15) = none ∧
    (True ↔ sourceValue sample five ≠ 0) ∧ (False ↔ sourceValue sample five = 0) ∧
    (sourceValue sample (imm (-1))).toInt < 0 ∧ 0 ≤ (sourceValue sample (imm 15)).toInt ∧ sample.fault = none ∧
    (sample.mem.len : Int) ≤ (sourceValue sample (imm 15)).toInt ∧
    (sample.mem.len : Int) ≤ (sourceValue sample (imm maxWord)).toInt := by decide
theorem witness_JumpsResolveTheirTargetEagerly :
    sourceFault sample (imm 0) = none ∧ sourceFault sample five = none ∧ sourceFault sample negAddr = some .invalidAddress ∧
    sourceFault sample badMode = some .invalidMode := by decide
theorem witness_ArbAdjustsTheRelativeBase :
    sourceFault sample negAddr = some .invalidAddress ∧ sourceFault sample five = none ∧
    IsWrapOf 15 (sample.rb.toInt + (sourceValue sample five).toInt) ∧
    IsWrapOf minWord ((sample.setRb maxWord).rb.toInt + (sourceValue (sample.setRb maxWord) (imm 1)).toInt) ∧
    (∀ o ∈ (Instr.jt five (imm 0)).params, o.mode ≠ .relative) := by decide
theorem witness_ArbAdjustsTheRelativeBase_next :
    ∃ t, (∀ a, Instr.out five ≠ .arb a) ∧ exec (.out five) sample = .next t := ⟨_, by simp, rfl⟩
theorem witness_HltHaltsForGood :
    sample.fault = none ∧ sample.mem.len ≤ 2 ^ 63 ∧ (Memory.mk [] (2 ^ 63)).len ≤ 2 ^ 63 := by decide
theorem witness_IllegalWordsRaiseUnknownOpcode :
    sample.fault = none ∧ sample.pc.toNat < sample.mem.len ∧ IllegalWord (sample.mem.read sample.pc.toNat) ∧
    IllegalWord ((image [-1]).mem.read (image [-1]).pc.toNat) ∧ (image [-1]).pc.toNat < (image [-1]).mem.len := by decide
theorem witness_AddAndMulCommute : sourceFault sample five = none ∧ sourceFault sample (imm minWord) = none := by decide
theorem witness_TheFirstFailingCheckIsTheFault :
    instrFault sample (.add ⟨.position, -1⟩ badMode ⟨.immediate, 0⟩) = some .invalidAddress ∧
    instrFault sample .hlt = none ∧ instrFault sample (.jf (imm 1) (imm (-1))) = none := by decide
theorem witness_ImmediateDestinationsFault : sourceFault sample five = none ∧ sourceFault sample seven = none := by decide
theorem witness_FaultsArePrecise :
    (stepReply hardware sample).result = .faulted .unknownOpcode ∧
    (stepReply ⟨16, .wrap⟩ (image [3, 16])).result = .faulted .capacityExceeded := by decide
theorem witness_FaultsAreSticky : (sample.setFault (some .invalidMode)).fault = some .invalidMode := by decide
theorem witness_OverflowFaultsWhenConfigured :
    (Config.mk (2 ^ 63) .fault).aluOverflow = .fault ∧ 2 ^ 63 ≤ (Config.mk (2 ^ 63) .fault).memCap ∧
    F3Resolves sample (imm maxWord) (imm 1) five ∧
    ¬ InI64 ((sourceValue sample (imm maxWord)).toInt + (sourceValue sample (imm 1)).toInt) ∧
    F3Resolves sample (imm minWord) (imm (-1)) five ∧
    ¬ InI64 ((sourceValue sample (imm minWord)).toInt * (sourceValue sample (imm (-1))).toInt) ∧
    sourceFault (sample.setRb minWord) (imm (-1)) = none ∧
    ¬ InI64 ((sample.setRb minWord).rb.toInt + (sourceValue (sample.setRb minWord) (imm (-1))).toInt) := by decide

theorem witness_StoringInstructionsFrame :
    writeAddr hardware sample atMax = .ok (2 ^ 63 - 1) ∧ (12 : Nat) ≠ 2 ^ 63 - 1 ∧
    instrFault sample (.lt five seven atMax) = none ∧
    writeAddr hardware sample negAddr = .error .invalidAddress ∧
    instrFault sample (.mul five seven negAddr) ≠ none := by decide
theorem witness_StoringInstructionsFrame_next : ∃ t, exec (.lt five seven atMax) sample = .next t := ⟨_, rfl⟩
theorem witness_InFrame :
    destFault sample five = none ∧ sample.inq = [] ∧ writeAddr hardware sample five = .ok 12 ∧ (13 : Nat) ≠ 12 ∧
    destFault sample negAddr ≠ none ∧ writeAddr hardware sample negAddr = .error .invalidAddress := by decide
theorem witness_InFrame_next : ∃ t, exec (.inp five) (sample.setInq [1]) = .next t := ⟨_, rfl⟩
theorem witness_NonStoringInstructionsFrame :
    instrFault sample (.out five) = none ∧ instrFault sample (.arb negAddr) ≠ none ∧ Instr.hlt ≠ .out five ∧
    Instr.out five ≠ .arb five := by decide
theorem witness_NonStoringInstructionsFrame_next : ∃ t, exec (.jt five seven) sample = .next t := ⟨_, rfl⟩

theorem witness_StepExecutesTheDecodedInstruction :
    let s := image [1002, 4, 3, 4, 33]
    s.fault = none ∧ s.pc.toNat < s.mem.len ∧
    decode (s.mem.read s.pc.toNat) (s.mem.read (s.pc.toNat + 1)) (s.mem.read (s.pc.toNat + 2))
      (s.mem.read (s.pc.toNat + 3)) = .ok (.mul ⟨.position, 4⟩ (imm 3) ⟨.position, 4⟩) := by decide
theorem witness_FaultedAndTerminatedCoresStayAsTheyAre :
    (sample.setFault (some .unknownOpcode)).fault = some .unknownOpcode ∧ sample.fault = none ∧
    (sample.setPc 15).mem.len ≤ (sample.setPc 15).pc.toNat := by decide
theorem witness_StepResultsMeanWhatTheySay : (one (image [3, 5, 99, 0, 0, 0])).result = .paused := by decide
theorem witness_RestStatesClassify : (image [3, 5, 99, 0, 0, 0]).awaitingInput hardware = true := by decide
theorem witness_LaterInputIsInvisible :
    (one (image [3, 5, 99] [1])).result ≠ .paused ∧ (one (image [99])).result ≠ .paused := by decide
theorem witness_PushedInputResumesAPausedCore : (one (image [3, 5, 99, 0, 0, 0])).result = .paused := by decide
theorem witness_OnlyArbWritesTheRelativeBase :
    (hostCall hardware .step (image [109, 5, 109, -7, 99])).2.rb ≠ (image [109, 5, 109, -7, 99]).rb := by decide

theorem witness_LoadBuildsTheInitialState :
    [(99 : Word)].length ≤ hardware.memCap ∧ [(99 : Word)][0]? = some 99 ∧
    [(1 : Word), 2].length ≤ (Config.mk 2 .wrap).memCap := by decide
theorem witness_BadImagesAreLoadErrors :
    (∃ t ∈ splitCommas (['1', ',', 'x', '\n'].filter (fun ch => ch ≠ '\n' ∧ ch ≠ '\r')), wordToken t = none) ∧
    (Config.mk 1 .wrap).memCap < [(1 : Word), 2].length := by decide
theorem witness_ImageTextReadsBack : [minWord, 0, maxWord] ≠ [] := by decide
theorem witness_RunReturnsOneReply : RunReturns hardware (image [99]) (one (image [99])) := ⟨1, by decide⟩
theorem witness_RunsEndHaltedPausedOrFaulted :
    (image [3, 5, 99]).Inv ∧ RunReturns hardware (image [3, 5, 99]) (one (image [3, 5, 99])) :=
  ⟨by decide, 1, by decide⟩
/-- A run that halts, at the edge `mem_len` = 2^63, and one that faults. -/
theorem witness_RunsEndHaltedPausedOrFaulted_others :
    (State.mk 0 0 ⟨[(0, 99)], 2 ^ 63⟩ [] [] none).Inv ∧
    RunReturns hardware (State.mk 0 0 ⟨[(0, 99)], 2 ^ 63⟩ [] [] none) (one (State.mk 0 0 ⟨[(0, 99)], 2 ^ 63⟩ [] [] none)) ∧
    (image [0]).Inv ∧ RunReturns hardware (image [0]) (one (image [0])) :=
  ⟨by decide, ⟨1, by decide⟩, by decide, 1, by decide⟩

theorem witness_SetMemoryWritesOrIsRefused :
    ((-1 : Int) < 0) ∧ (2 ^ 63 - 1 : Int) < 2 ^ 63 ∧ ((0 : Int) ≤ 16 ∧ (16 : Int) ≤ 2 ^ 63 - 1) ∧
    (Config.mk 16 .wrap).memCap ≤ (16 : Int).toNat ∧ (15 : Int).toNat < (Config.mk 16 .wrap).memCap ∧
    (2 ^ 63 - 1 : Int).toNat < hardware.memCap := by decide
theorem witness_DrainIsRepeatedPop :
    sample.outq = [] ∧ (sample.setOutq [1, 42]).outq = 1 :: [42] := by decide
theorem witness_HostCallsKeepTheControlState : HostCall.setMemory 20 7 ≠ .step ∧ HostCall.popOutput ≠ .step := by decide

theorem witness_EveryStepKeepsTheInvariant : (image [1, 0, 0, 0, 99]).Inv ∧ (sample.setPc pcHalt).Inv := by decide
theorem witness_EveryStepKeepsTheInvariant_next : ∃ t, step (image [1, 0, 0, 0, 99]) = .next t := ⟨_, rfl⟩
theorem witness_EveryReachableStateMeetsTheInvariant : load hardware [99] [5] = .ok (image [99] [5]) := by decide

end Sys2Proof.Tests
end

/-!
The architectural state (10_state.md): what steps and host calls keep of it, and the proofs of the claims about it.
-/

namespace Sys2Proof.Machine

/-! ### Memory in canonical form (R25, R26) -/

/-- In a list with strictly rising addresses and no listed 0, looking an address up finds exactly the listed cells. -/
theorem mem_iff_lookupCell {l : List (Nat × Word)} (hs : l.Pairwise (fun x y => x.1 < y.1))
    (hz : ∀ c ∈ l, c.2 ≠ 0) (c : Nat × Word) : c ∈ l ↔ c.2 ≠ 0 ∧ lookupCell c.1 l = c.2 := by
  induction l with
  | nil => simpa [lookupCell] using fun h e => h e.symm
  | cons d ds ih =>
    obtain ⟨hd, hds⟩ := List.pairwise_cons.mp hs
    have ih := ih hds (fun e he => hz e (List.mem_cons_of_mem _ he))
    rw [List.mem_cons, lookupCell]
    by_cases hdc : d.1 = c.1
    · have hnot : c ∉ ds := fun hc => by have := hd c hc; omega
      have hd0 := hz d List.mem_cons_self
      rw [if_pos hdc]
      constructor
      · rintro (rfl | hc)
        · exact ⟨hd0, rfl⟩
        · exact absurd hc hnot
      · rintro ⟨-, hv⟩
        exact .inl (Prod.ext hdc.symm hv.symm)
    · have hne : c ≠ d := fun e => hdc (by rw [e])
      rw [if_neg hdc, ← ih]
      exact or_iff_right hne

/-- Lists of cells with strictly rising addresses and no listed 0 that hold the same words are equal. -/
theorem cells_ext {l k : List (Nat × Word)}
    (hl : l.Pairwise (fun x y => x.1 < y.1)) (hlz : ∀ c ∈ l, c.2 ≠ 0)
    (hk : k.Pairwise (fun x y => x.1 < y.1)) (hkz : ∀ c ∈ k, c.2 ≠ 0)
    (h : ∀ a, lookupCell a l = lookupCell a k) : l = k := by
  have nodup : ∀ {j : List (Nat × Word)}, j.Pairwise (fun x y => x.1 < y.1) → j.Nodup :=
    fun hj => hj.imp (fun hlt e => by simp [e] at hlt)
  have same : ∀ c, c ∈ l ↔ c ∈ k := fun c => by
    rw [mem_iff_lookupCell hl hlz, mem_iff_lookupCell hk hkz, h]
  exact List.Perm.eq_of_pairwise (fun _ _ _ _ hlt hgt => absurd hlt hgt.asymm) hl hk
    ((List.perm_ext_iff_of_nodup (nodup hl) (nodup hk)).mpr same)

/-- In canonical form the word listed for an address is the word read there, at every address. -/
theorem Memory.lookupCell_eq_read {m : Memory} (h : m.wf) (a : Nat) : lookupCell a m.cells = m.read a := by
  obtain ⟨-, hc, -⟩ := h
  by_cases ha : a < m.len
  · simp [Memory.read, ha]
  · rw [Memory.read_of_len_le (by omega)]
    exact lookupCell_eq_zero a _ (fun c hm e => by have := (hc c hm).2; omega)

/-- Canonical memories of one length that read alike are the same data. -/
theorem Memory.ext_of_read {m n : Memory} (hm : m.wf) (hn : n.wf) (hlen : m.len = n.len)
    (h : ∀ a < m.len, m.read a = n.read a) : m = n := by
  have reads : ∀ a, m.read a = n.read a := fun a => by
    by_cases ha : a < m.len
    · exact h a ha
    · rw [Memory.read_of_len_le (by omega), Memory.read_of_len_le (by omega)]
  have hcells : m.cells = n.cells := by
    have ⟨hms, hmc, _⟩ := hm
    have ⟨hns, hnc, _⟩ := hn
    refine cells_ext hms (fun c hc => (hmc c hc).1) hns (fun c hc => (hnc c hc).1) fun a => ?_
    rw [Memory.lookupCell_eq_read hm, Memory.lookupCell_eq_read hn, reads]
  cases m
  cases n
  exact congr (congrArg Memory.mk hcells) hlen

/-! ### Sequences of host calls -/

/-- What every single call keeps, every sequence of calls keeps. -/
theorem hostCalls_induction {c : Config} {P : State → Prop} (hcall : ∀ k s, P s → P (hostCall c k s).2)
    (calls : List HostCall) {s : State} (h : P s) : P (hostCalls c calls s) := by
  induction calls generalizing s with
  | nil => exact h
  | cons k ks ih => exact ih (hcall k s h)

/-! ### What a step finds, and what it changes -/

/-- A step executes the instruction it finds, or sets the latch (perhaps to the value it has) and nothing else. -/
theorem stepReply_executes_or_latches (c : Config) (s : State) :
    (∃ i, nextAction s = .execute i ∧ stepReply c s = execReply c i s) ∨
    (∃ f, (stepReply c s).state = s.setFault f ∧ (stepReply c s).result ≠ .paused ∧
      ∀ i, nextAction s ≠ .execute i) := by
  unfold stepReply
  cases nextAction s with
  | execute i => exact .inl ⟨i, rfl, rfl⟩
  | latched f => exact .inr ⟨s.fault, rfl, by simp, by simp⟩
  | terminated => exact .inr ⟨s.fault, rfl, by simp, by simp⟩
  | illegal => exact .inr ⟨some .unknownOpcode, rfl, by simp, by simp⟩

/-- An instruction pauses exactly if it is an `in` whose destination resolves while no input waits (R140). -/
theorem execReply_paused_iff (c : Config) (i : Instr) (s : State) :
    (execReply c i s).result = .paused ↔ ∃ d p, i = .inp d ∧ writeAddr c s d = .ok p ∧ s.inq = [] := by
  constructor
  · intro h
    rcases execReply_cases c i s with ⟨f, e⟩ | ⟨d, p, hi, hp, hq, -⟩ | ⟨-, e⟩ | ⟨d, p, r, -, -, -, e⟩ |
      ⟨d, p, v, rest, -, -, -, e⟩ | ⟨a, x, -, -, e⟩ | ⟨a, t, x, -, -, -, e⟩ | ⟨a, t, -, e⟩ | ⟨a, r, -, e⟩
    case inr.inl => exact ⟨d, p, hi, hp, hq⟩
    all_goals simp [e] at h
  · rintro ⟨d, p, rfl, hp, hq⟩
    rcases inReply_cases c d s with ⟨f, hf, -⟩ | ⟨-, -, -, e⟩ | ⟨-, v, rest, -, hv, -⟩
    · simp [hp] at hf
    · exact congrArg Reply.result e
    · simp [hq] at hv

/-- A step pauses exactly if it executes such an `in`. -/
theorem stepReply_paused_iff (c : Config) (s : State) :
    (stepReply c s).result = .paused ↔
      ∃ d p, nextAction s = .execute (.inp d) ∧ writeAddr c s d = .ok p ∧ s.inq = [] := by
  rcases stepReply_executes_or_latches c s with ⟨i, hi, e⟩ | ⟨f, -, hr, hn⟩
  · simp [e, hi, execReply_paused_iff]
  · simp [hr, hn]

/-- A core awaits input exactly under the same condition (R31). -/
theorem State.awaitingInput_iff (c : Config) (s : State) :
    s.awaitingInput c = true ↔
      ∃ d p, nextAction s = .execute (.inp d) ∧ writeAddr c s d = .ok p ∧ s.inq = [] := by
  unfold State.awaitingInput
  split
  next d hd => cases hp : writeAddr c s d <;> simp [hd, hp]
  next hn => simpa using fun d hd => absurd hd (hn d)

theorem State.restState_eq_faulted {s : State} {f : Fault} : s.restState = .faulted f ↔ s.fault = some f := by
  unfold State.restState
  cases s.fault with
  | some g => simp
  | none => cases s.terminated <;> simp

theorem State.restState_eq_halted {s : State} :
    s.restState = .halted ↔ s.fault = none ∧ s.mem.len ≤ s.pc.toNat := by
  rw [← s.terminated_iff]
  unfold State.restState
  cases s.fault with
  | some g => simp
  | none => cases s.terminated <;> simp

theorem State.restState_eq_ready {s : State} :
    s.restState = .ready ↔ s.fault = none ∧ s.pc.toNat < s.mem.len := by
  rw [← s.not_terminated_iff]
  unfold State.restState
  cases s.fault with
  | some g => simp
  | none => cases s.terminated <;> simp

/-- Only `in` takes a word from the input queue, and it takes the head (R27). -/
theorem execReply_inq (c : Config) (i : Instr) (s : State) :
    (execReply c i s).state.inq = s.inq ∨ ∃ v d, s.inq = v :: (execReply c i s).state.inq ∧ i = .inp d := by
  rcases execReply_cases c i s with ⟨f, e⟩ | ⟨d, p, -, -, -, e⟩ | ⟨-, e⟩ | ⟨d, p, r, -, -, -, e⟩ |
    ⟨d, p, v, rest, hi, -, hq, e⟩ | ⟨a, x, -, -, e⟩ | ⟨a, t, x, -, -, -, e⟩ | ⟨a, t, -, e⟩ | ⟨a, r, -, e⟩
  case inr.inr.inr.inr.inl => exact .inr ⟨v, d, by simp [e, hq], hi⟩
  all_goals exact .inl (by simp [e])

/-- Only `out` adds a word to the output queue, at its tail (R28). -/
theorem execReply_outq (c : Config) (i : Instr) (s : State) :
    (execReply c i s).state.outq = s.outq ∨
      ∃ v a, (execReply c i s).state.outq = s.outq ++ [v] ∧ i = .out a := by
  rcases execReply_cases c i s with ⟨f, e⟩ | ⟨d, p, -, -, -, e⟩ | ⟨-, e⟩ | ⟨d, p, r, -, -, -, e⟩ |
    ⟨d, p, v, rest, -, -, -, e⟩ | ⟨a, x, hi, -, e⟩ | ⟨a, t, x, -, -, -, e⟩ | ⟨a, t, -, e⟩ | ⟨a, r, -, e⟩
  case inr.inr.inr.inr.inr.inl => exact .inr ⟨x, a, by simp [e], hi⟩
  all_goals exact .inl (by simp [e])

/-- Only `arb` changes the relative base (R24). -/
theorem execReply_rb (c : Config) (i : Instr) (s : State) :
    (execReply c i s).state.rb = s.rb ∨ ∃ a, i = .arb a := by
  rcases execReply_cases c i s with ⟨f, e⟩ | ⟨d, p, -, -, -, e⟩ | ⟨-, e⟩ | ⟨d, p, r, -, -, -, e⟩ |
    ⟨d, p, v, rest, -, -, -, e⟩ | ⟨a, x, -, -, e⟩ | ⟨a, t, x, -, -, -, e⟩ | ⟨a, t, -, e⟩ | ⟨a, r, hi, -⟩
  case inr.inr.inr.inr.inr.inr.inr.inr => exact .inr ⟨a, hi⟩
  all_goals exact .inl (by simp [e])

/-! ### Words already in the output queue (R28) -/

/-- The state with the words `q` in front of its output queue. -/
def State.prependOut (q : List Word) (s : State) : State := { s with outq := q ++ s.outq }

/-- The reply whose state has the words `q` in front of its output queue. -/
def Reply.prependOut (q : List Word) (r : Reply) : Reply := ⟨r.state.prependOut q, r.result⟩

section
variable (q : List Word) (s : State)

@[simp] theorem readParam_prependOut (o : Operand) : readParam (s.prependOut q) o = readParam s o :=
  readParam_congr rfl rfl o

@[simp] theorem writeAddr_prependOut (c : Config) (o : Operand) :
    writeAddr c (s.prependOut q) o = writeAddr c s o :=
  writeAddr_congr rfl c o

@[simp] theorem nextAction_prependOut : nextAction (s.prependOut q) = nextAction s := rfl

theorem pushOut_prependOut (v : Word) : (s.prependOut q).pushOut v = (s.pushOut v).prependOut q := by
  simp [State.prependOut, State.pushOut, State.setOutq]

theorem storeResult_prependOut (c : Config) (g : Word → Word → Except Fault Word) (a b d : Operand) :
    storeResult c g a b d (s.prependOut q) = (storeResult c g a b d s).prependOut q := by
  simp only [storeResult, readParam_prependOut, writeAddr_prependOut]
  cases readParam s a with
  | error f => rfl
  | ok x =>
    cases readParam s b with
    | error f => rfl
    | ok y =>
      cases writeAddr c s d with
      | error f => rfl
      | ok p =>
        simp only [bind, Except.bind]
        cases g x y <;> rfl

theorem jumpIf_prependOut (taken : Word → Bool) (a t : Operand) :
    jumpIf taken a t (s.prependOut q) = (jumpIf taken a t s).prependOut q := by
  simp only [jumpIf, readParam_prependOut]
  cases readParam s a with
  | error f => rfl
  | ok x =>
    cases readParam s t with
    | error f => rfl
    | ok v =>
      simp only [bind, Except.bind]
      cases taken x with
      | false => rfl
      | true => by_cases hv : v.toInt < 0 <;> simp only [hv, if_true, if_false] <;> rfl

theorem inReply_prependOut (c : Config) (d : Operand) :
    inReply c d (s.prependOut q) = (inReply c d s).prependOut q := by
  simp only [inReply, writeAddr_prependOut, show (s.prependOut q).inq = s.inq from rfl]
  cases writeAddr c s d with
  | error f => rfl
  | ok p => cases s.inq <;> rfl

theorem outReply_prependOut (a : Operand) : outReply a (s.prependOut q) = (outReply a s).prependOut q := by
  simp only [outReply, readParam_prependOut, pushOut_prependOut]
  cases readParam s a <;> rfl

theorem arbReply_prependOut (c : Config) (a : Operand) :
    arbReply c a (s.prependOut q) = (arbReply c a s).prependOut q := by
  simp only [arbReply, readParam_prependOut, show (s.prependOut q).rb = s.rb from rfl]
  cases readParam s a with
  | error f => rfl
  | ok x =>
    simp only [bind, Except.bind]
    cases aluResult c (s.rb.toInt + x.toInt) <;> rfl

theorem execReply_prependOut (c : Config) (i : Instr) :
    execReply c i (s.prependOut q) = (execReply c i s).prependOut q := by
  cases i with
  | add a b d | mul a b d | lt a b d | eq a b d => exact storeResult_prependOut q s c _ a b d
  | inp d => exact inReply_prependOut q s c d
  | out a => exact outReply_prependOut q s a
  | jt a t | jf a t => exact jumpIf_prependOut q s _ a t
  | arb a => exact arbReply_prependOut q s c a
  | hlt => rfl

theorem stepReply_prependOut (c : Config) : stepReply c (s.prependOut q) = (stepReply c s).prependOut q := by
  unfold stepReply
  rw [nextAction_prependOut]
  cases nextAction s with
  | execute i => exact execReply_prependOut q s c i
  | latched f | terminated | illegal => rfl

end

/-! ### The causes an instruction can raise on this hardware (R114, R215) -/

theorem firstFault_latchOk {l : List (Option Fault)} (h : ∀ f ∈ l, LatchOk f) : LatchOk (firstFault l) := by
  induction l with
  | nil => exact .inl rfl
  | cons f fs ih =>
    cases f with
    | some g => exact h _ List.mem_cons_self
    | none => exact ih (fun g hg => h g (List.mem_cons_of_mem _ hg))

theorem targetFault_latchOk (taken : Prop) [Decidable taken] (t : Word) : LatchOk (targetFault taken t) := by
  unfold targetFault
  split <;> simp [LatchOk]

theorem instrFault_latchOk (s : State) (i : Instr) : LatchOk (instrFault s i) := by
  cases i with
  | add a b d | mul a b d | lt a b d | eq a b d =>
    refine firstFault_latchOk ?_
    simp only [List.forall_mem_cons]
    exact ⟨sourceFault_latchOk s a, sourceFault_latchOk s b, destFault_latchOk s d, by simp⟩
  | jt a t | jf a t =>
    refine firstFault_latchOk ?_
    simp only [List.forall_mem_cons]
    exact ⟨sourceFault_latchOk s a, sourceFault_latchOk s t, targetFault_latchOk _ _, by simp⟩
  | inp d => exact destFault_latchOk s d
  | out a | arb a => exact sourceFault_latchOk s a
  | hlt => exact .inl rfl

/-- An F3 body whose computation never faults raises exactly the first fault of its parameters. -/
theorem storeResult_faulted_iff {g : Word → Word → Except Fault Word} (hg : ∀ x y, ∃ r, g x y = .ok r)
    (a b d : Operand) (s : State) (f : Fault) :
    (storeResult hardware g a b d s).result = .faulted f ↔
      firstFault [sourceFault s a, sourceFault s b, destFault s d] = some f := by
  rw [storeResult_eq]
  obtain ⟨r, hr⟩ := hg (sourceValue s a) (sourceValue s b)
  cases firstFault [sourceFault s a, sourceFault s b, destFault s d] <;> simp [hr]

/-- On this hardware an instruction returns Faulted(f) exactly if `f` is its first failing check (R114). -/
theorem execReply_faulted_iff (i : Instr) (s : State) (f : Fault) :
    (execReply hardware i s).result = .faulted f ↔ instrFault s i = some f := by
  cases i with
  | add a b d | mul a b d | lt a b d | eq a b d =>
    exact storeResult_faulted_iff (fun _ _ => ⟨_, rfl⟩) a b d s f
  | inp d =>
    simp only [execReply, inReply_eq, instrFault]
    cases destFault s d with
    | some g => simp
    | none => cases s.inq <;> simp
  | out a =>
    simp only [execReply, outReply_eq, instrFault]
    cases sourceFault s a <;> simp
  | jt a t =>
    simp only [execReply, jtReply_eq]
    cases instrFault s (.jt a t) with
    | some g => simp
    | none => simp only; split <;> simp
  | jf a t =>
    simp only [execReply, jfReply_eq]
    cases instrFault s (.jf a t) with
    | some g => simp
    | none => simp only; split <;> simp
  | arb a =>
    simp only [execReply, arbReply_eq, instrFault]
    cases sourceFault s a <;> simp
  | hlt => simp [execReply, hltReply, instrFault]

/-- No instruction raises a cause that this hardware cannot (R215). -/
theorem latchOk_of_execReply_faulted {i : Instr} {s : State} {f : Fault}
    (h : (execReply hardware i s).result = .faulted f) : LatchOk (some f) :=
  (execReply_faulted_iff i s f).mp h ▸ instrFault_latchOk s i

/-! ### The invariant -/

/-- An instruction fetched below 2^63 leaves `pc` at most 4 words further on: no wrap (R6, R23). -/
theorem State.advance_pc_le {s : State} (h : s.pc.toNat < 2 ^ 63) {n : Nat} (hn : n ≤ 4) :
    (s.advance n).pc.toNat ≤ 2 ^ 63 + 3 := by
  rw [State.advance_pc, BitVec.toNat_add, BitVec.toNat_ofNat]
  omega

/-- A non-negative word is below 2^63 as a program counter. -/
theorem toNat_lt_of_toInt_nonneg {x : Word} (h : 0 ≤ x.toInt) : x.toNat < 2 ^ 63 := by
  have := BitVec.toInt_pos_iff.mp h
  omega

/-- With the latch clear, the invariant is a canonical memory and `pc` in range. -/
theorem State.inv_of_not_faulted {s : State} (hf : s.fault = none) (hm : s.mem.wf)
    (hpc : s.pc.toNat ≤ 2 ^ 63 + 3) : s.Inv :=
  ⟨hm, hpc, .inl hf, fun h => absurd hf h⟩

/-- Taking a fault of this hardware with `pc` inside memory keeps the invariant (R218). -/
theorem State.Inv.takeFault {s : State} (h : s.Inv) (hin : s.pc.toNat < s.mem.len) {f : Fault}
    (hf : LatchOk (some f)) : (takeFault s f).Inv :=
  have ⟨hwf, hpc, _, _⟩ := h
  ⟨hwf, hpc, hf, fun _ => hin⟩

/-- Executing an instruction found inside memory with the latch clear keeps the invariant. -/
theorem execReply_inv (i : Instr) {s : State} (h : s.Inv) (hf : s.fault = none)
    (hin : s.pc.toNat < s.mem.len) : (execReply hardware i s).state.Inv := by
  have ⟨hwf, _, _, _⟩ := h
  have hpc63 : s.pc.toNat < 2 ^ 63 := lt_of_lt_of_le hin hwf.2.2
  have hadv : ∀ {n}, n ≤ 4 → (s.pc + BitVec.ofNat 64 n).toNat ≤ 2 ^ 63 + 3 := fun hn => s.advance_pc_le hpc63 hn
  rcases execReply_cases hardware i s with ⟨f, e⟩ | ⟨d, p, -, -, -, e⟩ | ⟨-, e⟩ | ⟨d, p, r, -, -, hp, e⟩ |
    ⟨d, p, v, rest, -, hp, -, e⟩ | ⟨a, x, -, -, e⟩ | ⟨a, t, x, -, -, h0, e⟩ | ⟨a, t, -, e⟩ | ⟨a, r, -, e⟩
  all_goals rw [e]
  · exact h.takeFault hin (latchOk_of_execReply_faulted (by rw [e]; rfl))
  · exact h
  · exact State.inv_of_not_faulted hf hwf (by decide : pcHalt.toNat ≤ 2 ^ 63 + 3)
  · exact State.inv_of_not_faulted hf (Memory.write_wf hwf (writeAddr_ok hp).1 r) (hadv (by omega))
  · exact State.inv_of_not_faulted hf (Memory.write_wf hwf (writeAddr_ok hp).1 v) (hadv (by omega))
  · exact State.inv_of_not_faulted hf hwf (hadv (by omega))
  · exact State.inv_of_not_faulted hf hwf ((toNat_lt_of_toInt_nonneg h0).le.trans (by omega))
  · exact State.inv_of_not_faulted hf hwf (hadv (by omega))
  · exact State.inv_of_not_faulted hf hwf (hadv (by omega))

/-- A step keeps the invariant. -/
theorem stepReply_inv {s : State} (h : s.Inv) : (stepReply hardware s).state.Inv := by
  rcases stepReply_cases hardware s with ⟨f, -, e⟩ | ⟨-, -, e⟩ | ⟨-, hin, -, e⟩ | ⟨i, hf, hin, -, e⟩ <;> rw [e]
  · exact h
  · exact h
  · exact h.takeFault hin (by simp [LatchOk])
  · exact execReply_inv i h hf hin

/-- A host call keeps the invariant. -/
theorem hostCall_inv (k : HostCall) {s : State} (h : s.Inv) : (hostCall hardware k s).2.Inv := by
  rcases hostCall_cases hardware k s with ⟨-, e⟩ | ⟨-, q, o, e⟩ | ⟨-, a, v, ha, -, e⟩ <;> rw [e]
  · exact stepReply_inv h
  · exact h
  · obtain ⟨hwf, hpc, hl, hin⟩ := h
    exact ⟨Memory.write_wf hwf ha v, hpc, hl, fun hf => (hin hf).trans_le (s.mem.len_le_write_len a v)⟩

/-- A loaded core meets the invariant (R250). -/
theorem load_inv {program inputs : List Word} {s : State} (h : load hardware program inputs = .ok s) : s.Inv := by
  unfold load at h
  split at h
  · simp at h
  · rename_i hfits
    obtain rfl := Except.ok.inj h
    exact State.inv_of_not_faulted rfl (imageMemory_wf program (not_lt.mp hfits)) (by simp)

/-! ### The claims -/

/-- Settles O53: every reply of a step is one of the cases of `execReply_cases`, and each keeps the invariant. -/
theorem everyStepKeepsTheInvariant : Obligations.EveryStepKeepsTheInvariant := by
  intro s t h hstep
  rw [step_eq] at hstep
  exact Host.Outcome.next.inj hstep ▸ stepReply_inv h

/-- Settles O54: a load meets the invariant and every host call keeps it. -/
theorem everyReachableStateMeetsTheInvariant : Obligations.EveryReachableStateMeetsTheInvariant :=
  fun _ _ _ hload calls => hostCalls_induction (fun k _ => hostCall_inv k) calls (load_inv hload)

/-- Settles O7: the cells of a canonical memory are determined by the words read. -/
theorem canonicalMemoriesWithEqualWordsAreEqual : Obligations.CanonicalMemoriesWithEqualWordsAreEqual :=
  fun _ _ => Memory.ext_of_read

/-- Settles O8: no call shortens memory, so no sequence of calls does. -/
theorem memoryLengthNeverDecreases : Obligations.MemoryLengthNeverDecreases := by
  intro c calls s
  exact hostCalls_induction (P := fun t => s.mem.len ≤ t.mem.len)
    (fun k t h => h.trans (hostCall_len_le c k t)) calls le_rfl

/-- Settles O36: awaiting input and pausing are one condition on the state, and it makes the core Ready. -/
theorem restStatesClassify : Obligations.RestStatesClassify := by
  intro c s
  refine ⟨(s.awaitingInput_iff c).trans (stepReply_paused_iff c s).symm, fun h => ?_,
    fun _ => State.restState_eq_faulted, State.restState_eq_halted, State.restState_eq_ready⟩
  obtain ⟨d, p, hd, -, -⟩ := (s.awaitingInput_iff c).mp h
  obtain ⟨hf, hin, -⟩ := nextAction_execute.mp hd
  exact State.restState_eq_ready.mpr ⟨hf, hin⟩

/-- Settles O37: the queues change only where a step executes an instruction, and there as that instruction says. -/
theorem stepsMoveAtMostOneQueueWord : Obligations.StepsMoveAtMostOneQueueWord := by
  intro c s
  rcases stepReply_executes_or_latches c s with ⟨i, hi, e⟩ | ⟨f, e, -, -⟩
  · simpa only [e, hi, Action.execute.injEq] using And.intro (execReply_inq c i s) (execReply_outq c i s)
  · exact ⟨.inl (by rw [e]; rfl), .inl (by rw [e]; rfl)⟩

/-- Settles O38: every instruction commutes with putting words in front of the output queue. -/
theorem theOutputQueueIsNotRead : Obligations.TheOutputQueueIsNotRead :=
  fun c s q => stepReply_prependOut q s c

/-- Settles O41: a call other than a step changes the queues or memory alone, and no instruction but `arb` changes `rb`. -/
theorem onlyArbWritesTheRelativeBase : Obligations.OnlyArbWritesTheRelativeBase := by
  intro c k s hrb
  rcases hostCall_cases c k s with ⟨hk, e⟩ | ⟨-, q, o, e⟩ | ⟨-, a, v, -, -, e⟩
  · rw [e] at hrb
    rcases stepReply_executes_or_latches c s with ⟨i, hi, e'⟩ | ⟨f, e', -, -⟩
    · rw [e'] at hrb
      obtain ⟨a, rfl⟩ := (execReply_rb c i s).resolve_left hrb
      exact ⟨hk, a, hi⟩
    · exact absurd (by rw [e']; rfl) hrb
  · exact absurd (by rw [e]; rfl) hrb
  · exact absurd (by rw [e]; rfl) hrb

end Sys2Proof.Machine

/-!
Memory (20_memory.md): the capacity under any configuration, the fetch after a store, and the proofs of the claims about them.
-/

namespace Sys2Proof.Machine

/-! ### The capacity (R58) -/

/-- Where a destination raises no fault of this hardware, the capacity is the one check left, in any configuration (R113). -/
theorem writeAddr_of_destFault_eq_none (c : Config) {s : State} {o : Operand} (h : destFault s o = none) :
    writeAddr c s o =
      if c.memCap ≤ operandAddress s o then .error .capacityExceeded else .ok (operandAddress s o) := by
  obtain ⟨mode, raw⟩ := o
  cases mode with
  | illegal d | immediate => simp [destFault] at h
  | position | relative =>
    simp only [destFault] at h
    simp only [writeAddr, effectiveAddress_eq, addressInt, h, operandAddress]
    split <;> simp [*]

/-- A destination that resolves at or beyond the capacity raises CapacityExceeded (R58). -/
theorem writeAddr_beyond_capacity {c : Config} {s : State} {o : Operand} (h : destFault s o = none)
    (hcap : c.memCap ≤ operandAddress s o) : writeAddr c s o = .error .capacityExceeded := by
  rw [writeAddr_of_destFault_eq_none c h, if_pos hcap]

/-- An F3 body whose sources resolve raises its destination's fault, whatever it computes (R114). -/
theorem storeResult_of_writeAddr_error {c : Config} {a b d : Operand} {s : State} {f : Fault}
    (ha : sourceFault s a = none) (hb : sourceFault s b = none) (hd : writeAddr c s d = .error f)
    (g : Word → Word → Except Fault Word) : storeResult c g a b d s = raise s f := by
  unfold storeResult
  rw [readParam_eq, readParam_eq, ha, hb, hd]
  rfl

/-- `in` raises its destination's fault, whether or not input waits (R140). -/
theorem inReply_of_writeAddr_error {c : Config} {d : Operand} {s : State} {f : Fault}
    (hd : writeAddr c s d = .error f) : inReply c d s = raise s f := by
  unfold inReply
  rw [hd]
  rfl

/-- A write below the capacity keeps the length within it (R58). -/
theorem Memory.write_len_le_capacity {m : Memory} {cap a : Nat} (h : m.len ≤ cap) (ha : a < cap) (v : Word) :
    (m.write a v).len ≤ cap :=
  max_le h ha

/-- No instruction grows memory beyond the capacity. -/
theorem execReply_len_le_capacity {c : Config} (i : Instr) {s : State} (h : s.mem.len ≤ c.memCap) :
    (execReply c i s).state.mem.len ≤ c.memCap := by
  rcases execReply_cases c i s with ⟨f, e⟩ | ⟨d, p, -, -, -, e⟩ | ⟨-, e⟩ | ⟨d, p, r, -, -, hp, e⟩ |
    ⟨d, p, v, rest, -, hp, -, e⟩ | ⟨a, x, -, -, e⟩ | ⟨a, t, x, -, -, -, e⟩ | ⟨a, t, -, e⟩ | ⟨a, r, -, e⟩
  all_goals rw [e]
  case inr.inr.inr.inl => exact Memory.write_len_le_capacity h (writeAddr_ok hp).2 r
  case inr.inr.inr.inr.inl => exact Memory.write_len_le_capacity h (writeAddr_ok hp).2 v
  all_goals exact h

/-- No step grows memory beyond the capacity. -/
theorem stepReply_len_le_capacity {c : Config} {s : State} (h : s.mem.len ≤ c.memCap) :
    (stepReply c s).state.mem.len ≤ c.memCap := by
  rcases stepReply_executes_or_latches c s with ⟨i, -, e⟩ | ⟨f, e, -, -⟩ <;> rw [e]
  · exact execReply_len_le_capacity i h
  · exact h

/-- No host call grows memory beyond the capacity. -/
theorem hostCall_len_le_capacity {c : Config} (k : HostCall) {s : State} (h : s.mem.len ≤ c.memCap) :
    (hostCall c k s).2.mem.len ≤ c.memCap := by
  rcases hostCall_cases c k s with ⟨-, e⟩ | ⟨-, q, o, e⟩ | ⟨-, a, v, -, ha, e⟩ <;> rw [e]
  · exact stepReply_len_le_capacity h
  · exact h
  · exact Memory.write_len_le_capacity h ha v

/-- No sequence of host calls grows memory beyond the capacity. -/
theorem hostCalls_len_le_capacity {c : Config} (calls : List HostCall) {s : State} (h : s.mem.len ≤ c.memCap) :
    (hostCalls c calls s).mem.len ≤ c.memCap :=
  hostCalls_induction (P := fun t => t.mem.len ≤ c.memCap) (fun k _ => hostCall_len_le_capacity k) calls h

/-! ### Add, and the fetch after a store (R66) -/

/-- Wrapping the exact sum of two words is adding them as 64-bit words (R12, R132). -/
theorem wrap64_add (x y : Word) : wrap64 (x.toInt + y.toInt) = x + y := by
  simp [wrap64, BitVec.ofInt_add]

/-- `add` whose parameters resolve stores the sum and moves past its 4 words (R130). -/
theorem exec_add_of_resolves {a b d : Operand} {s : State} (h : F3Resolves s a b d) :
    exec (.add a b d) s =
      .next ((s.store (operandAddress s d) (sourceValue s a + sourceValue s b)).advance 4) := by
  obtain ⟨ha, hb, hd⟩ := h
  simp [exec_eq, execReply, addReply, storeResult_eq, ha, hb, hd, firstFault, wrap64_add]

/-- The fetch after a store reads the stored word at its address and memory as it was elsewhere (R66). -/
theorem fetch_store_advance (s : State) (a : Nat) (v : Word) (n : Nat) :
    fetch ((s.store a v).advance n) =
      let after := fun q => if q = a then v else s.mem.read q
      let p := (s.pc + BitVec.ofNat 64 n).toNat
      decode (after p) (after (p + 1)) (after (p + 2)) (after (p + 3)) := by
  simp only [fetch, State.advance_pc, State.advance_mem, State.store_pc, State.store_mem, Memory.read_write]

/-! ### The claims -/

/-- Settles O6: the rule for reading back after a write, with 0 read at and above the old length. -/
theorem writeGrowsWithZeroFill : Obligations.WriteGrowsWithZeroFill := by
  intro m a v
  refine ⟨?_, m.len_le_write_len a v, m.read_write_self a v, fun b hb => m.read_write_of_ne v hb, fun b hlen hb => ?_⟩
  · rw [Memory.write_len]
    split <;> omega
  · rw [m.read_write_of_ne v hb, Memory.read_of_len_le hlen]

/-- Settles O9: the capacity is checked when the destination resolves, so every store is below it. -/
theorem capacityBoundsTheStore : Obligations.CapacityBoundsTheStore := by
  intro c
  refine ⟨fun s a b d hd hcap => ?_, fun calls _ => hostCalls_len_le_capacity calls,
    fun _ _ hlen ha => Memory.read_of_len_le (hlen.trans ha)⟩
  have hw := writeAddr_beyond_capacity hd hcap
  refine ⟨inReply_of_writeAddr_error hw, fun ha hb i hi => ?_⟩
  rcases hi with rfl | rfl | rfl | rfl <;> exact storeResult_of_writeAddr_error ha hb hw _

/-- Settles O10: `add` leaves a state whose memory is one write away, and the fetch reads that memory. -/
theorem storeIsSeenByTheNextFetch : Obligations.StoreIsSeenByTheNextFetch :=
  fun _ _ _ s h => ⟨_, exec_add_of_resolves h, fetch_store_advance s _ _ 4⟩

end Sys2Proof.Machine

/-!
The instruction encoding (30_encoding.md): what the decoder reads from a word's decimal digits, that the encoder writes those
digits, and the proofs of the claims about both.
-/

namespace Sys2Proof

open Machine

/-! ### The fields of an instruction (R80, R83) -/

/-- The opcode column of R83. -/
theorem Instr.opcode_mem_definedOpcodes (i : Instr) : (i.opcode : Int) ∈ definedOpcodes := by
  cases i <;> simp [Instr.opcode, definedOpcodes]

theorem Instr.opcode_pos (i : Instr) : 0 < i.opcode := by
  cases i <;> simp [Instr.opcode]

theorem Instr.params_length_le (i : Instr) : i.params.length ≤ 3 := by
  cases i <;> simp [Instr.params]

/-- Only the opcodes 1 to 8 can have more than one parameter. -/
theorem Instr.opcode_le_or_one_param (i : Instr) : i.opcode ≤ 8 ∨ i.modeDigit 1 = 0 ∧ i.modeDigit 2 = 0 := by
  cases i <;> simp [Instr.opcode, Instr.modeDigit, Instr.params]

theorem Instr.modeDigit_of_getElem? {i : Instr} {k : Nat} {o : Operand} (h : i.params[k]? = some o) :
    i.modeDigit k = o.mode.digit := by
  simp [Instr.modeDigit, h]

/-! ### Decimal digits of a word (R81) -/

theorem opcodeDigits_natCast (n : Nat) : opcodeDigits n = opcodeOf n := by
  simp [opcodeDigits, opcodeOf]

theorem modeDigitOf_natCast (n k : Nat) : modeDigitOf n k = (modeOf n k).digit := by
  rw [modeOf, Mode.digit_ofDigit _ (Nat.mod_lt _ (by decide))]
  simp [modeDigitOf]

/-- A mode is the one the decoder reads exactly if its digit is the word's. -/
theorem mode_eq_modeOf_iff (m : Mode) (n k : Nat) : m = modeOf n k ↔ (m.digit : Int) = modeDigitOf n k := by
  rw [modeDigitOf_natCast]
  refine ⟨fun h => by rw [h], fun h => ?_⟩
  calc m = .ofDigit m.digit := (Mode.ofDigit_digit m).symm
    _ = .ofDigit (modeOf n k).digit := by rw [Int.ofNat_inj.mp h]
    _ = modeOf n k := Mode.ofDigit_digit _

/-! ### What the decoder answers (R91) -/

/-- Raw words `rs` as operands, each with its own mode digit of the instruction word `v` (R81). -/
def operandsAt (v : Nat) (rs : List Word) : List Operand := rs.mapIdx fun k r => ⟨modeOf v k, r⟩

/-- The operands at `v` are told by their raw words and their modes. -/
theorem eq_operandsAt_iff (l : List Operand) (v : Nat) (rs : List Word) :
    l = operandsAt v rs ↔ l.map Operand.raw = rs ∧ ∀ k o, l[k]? = some o → o.mode = modeOf v k := by
  constructor
  · rintro rfl
    refine ⟨List.ext_getElem? fun k => by simp [operandsAt, Function.comp_def], fun k o h => ?_⟩
    obtain ⟨r, -, rfl⟩ := by simpa [operandsAt] using h
    rfl
  · rintro ⟨rfl, hmode⟩
    refine List.ext_getElem? fun k => ?_
    cases h : l[k]? with
    | none => simp [operandsAt, h]
    | some o => simp [operandsAt, h, ← hmode k o h]

/-- The decoder answers the instruction of the word's opcode, with the operands after the word (R83, R91). -/
theorem decodeNat_eq_ok_iff {v : Nat} {r0 r1 r2 : Word} {i : Instr} :
    decodeNat v r0 r1 r2 = .ok i ↔
      opcodeOf v = i.opcode ∧ i.params = operandsAt v ([r0, r1, r2].take (i.length - 1)) := by
  constructor
  · intro h
    unfold decodeNat at h
    split at h <;> cases h <;> exact ⟨‹_›, rfl⟩
  · rintro ⟨hop, hparams⟩
    cases i <;> simp_all [decodeNat, operandsAt, Instr.opcode, Instr.params, Instr.length]

/-- A word decodes to `i` exactly if it is not negative, its two lowest digits are `i`'s opcode, the words after it are the raw
operands, and its mode digits are those of `i`'s parameters (R81, R82, R91). -/
theorem decode_eq_ok_iff {v r0 r1 r2 : Word} {i : Instr} :
    decode v r0 r1 r2 = .ok i ↔
      0 ≤ v.toInt ∧ opcodeDigits v.toInt = i.opcode ∧
      i.params.map Operand.raw = [r0, r1, r2].take (i.length - 1) ∧
      ∀ k o, i.params[k]? = some o → (o.mode.digit : Int) = modeDigitOf v.toInt k := by
  unfold decode
  by_cases hneg : v.toInt < 0
  · simp [hneg]
  · obtain ⟨n, hn⟩ := Int.eq_ofNat_of_zero_le (not_lt.mp hneg)
    rw [if_neg hneg, hn, Int.toNat_natCast, decodeNat_eq_ok_iff, eq_operandsAt_iff, opcodeDigits_natCast, Int.natCast_inj]
    simp only [mode_eq_modeOf_iff, Int.natCast_nonneg, true_and]

/-- Every defined opcode decodes (R83). -/
theorem decodeNat_ok_of_defined {v : Nat} (h : (opcodeOf v : Int) ∈ definedOpcodes) (r0 r1 r2 : Word) :
    ∃ i, decodeNat v r0 r1 r2 = .ok i := by
  unfold decodeNat
  split
  case h_11 =>
    simp only [definedOpcodes, List.mem_cons, List.not_mem_nil, or_false, imp_false] at *
    omega
  all_goals exact ⟨_, rfl⟩

/-- Every legal word decodes, whatever words follow it (R91). -/
theorem decode_ok_of_legal {v : Word} (h : ¬ IllegalWord v) (r0 r1 r2 : Word) : ∃ i, decode v r0 r1 r2 = .ok i := by
  obtain ⟨hneg, hop⟩ := not_or.mp h
  rw [decode, if_neg hneg]
  refine decodeNat_ok_of_defined ?_ r0 r1 r2
  rw [← opcodeDigits_natCast, Int.toNat_of_nonneg (not_lt.mp hneg)]
  exact not_not.mp hop

/-- A word that decodes is legal (R82, R92). -/
theorem legal_of_decode_ok {v r0 r1 r2 : Word} {i : Instr} (h : decode v r0 r1 r2 = .ok i) : ¬ IllegalWord v := by
  obtain ⟨hneg, hop, -⟩ := decode_eq_ok_iff.mp h
  rintro (hlt | hnot)
  · omega
  · exact hnot (hop ▸ i.opcode_mem_definedOpcodes)

/-! ### What the encoder writes (R95) -/

/-- The encoded word, read as a signed word, is the word value. -/
theorem encodedWord_toInt (i : Instr) : (BitVec.ofNat 64 i.wordValue).toInt = i.wordValue := by
  have := i.wordValue_lt
  have hnat : (BitVec.ofNat 64 i.wordValue).toNat = i.wordValue := by
    rw [BitVec.toNat_ofNat]
    omega
  rw [BitVec.toInt_eq_toNat_of_lt (by omega), hnat]

theorem opcodeDigits_wordValue (i : Instr) : opcodeDigits i.wordValue = i.opcode := by
  have := i.opcode_lt
  unfold opcodeDigits Instr.wordValue
  omega

/-- The word value's mode digits are the modes of the parameters: no digit carries into the next. -/
theorem modeDigitOf_wordValue (i : Instr) {k : Nat} (hk : k < 3) : modeDigitOf i.wordValue k = i.modeDigit k := by
  have := i.opcode_lt
  have := i.modeDigit_lt 0
  have := i.modeDigit_lt 1
  have := i.modeDigit_lt 2
  unfold modeDigitOf Instr.wordValue
  interval_cases k <;> omega

/-- The words after the encoded word begin with the raw operands, whatever follows them. -/
theorem params_raw_eq_take (i : Instr) (rest : List Word) :
    let ops := i.params.map Operand.raw ++ rest
    i.params.map Operand.raw = [ops.getD 0 0, ops.getD 1 0, ops.getD 2 0].take (i.length - 1) := by
  cases i <;> rfl

/-! ### Well-formed instructions (R84, R86) -/

theorem Operand.digit_le_of_sourceOk {o : Operand} (h : o.sourceOk = true) : o.mode.digit ≤ 2 := by
  rcases o with ⟨_ | _ | _ | d, r⟩ <;> simp_all [Operand.sourceOk, Mode.digit]

theorem Operand.sourceOk_of_destOk {o : Operand} (h : o.destOk = true) : o.sourceOk = true := by
  rcases o with ⟨_ | _ | _ | d, r⟩ <;> simp_all [Operand.sourceOk, Operand.destOk]

/-- Every parameter of a well-formed instruction has one of the three legal modes. -/
theorem Instr.sourceOk_of_wellFormed {i : Instr} (h : i.wellFormed = true) : ∀ o ∈ i.params, o.sourceOk = true := by
  cases i <;> simp_all [Instr.wellFormed, Instr.params, Operand.sourceOk_of_destOk]

theorem Instr.modeDigit_le_of_wellFormed {i : Instr} (h : i.wellFormed = true) (k : Nat) : i.modeDigit k ≤ 2 := by
  unfold Instr.modeDigit
  split
  next o ho => exact Operand.digit_le_of_sourceOk (i.sourceOk_of_wellFormed h o (List.mem_of_getElem? ho))
  next => omega

/-- The range of R88: the largest word is an opcode 8 with three relative parameters. -/
theorem Instr.wordValue_bounds {i : Instr} (h : i.wellFormed = true) : 1 ≤ i.wordValue ∧ i.wordValue ≤ 22208 := by
  have := i.opcode_pos
  have := i.opcode_lt
  have := i.opcode_le_or_one_param
  have := i.modeDigit_le_of_wellFormed h 0
  have := i.modeDigit_le_of_wellFormed h 1
  have := i.modeDigit_le_of_wellFormed h 2
  unfold Instr.wordValue
  omega

/-! ### The claims -/

/-- Settles O1: the encoder writes the digits and the words that tell what the decoder answers. -/
theorem decodeOfEncodeIsIdentity : Obligations.DecodeOfEncodeIsIdentity := by
  intro i rest
  refine decode_eq_ok_iff.mpr ?_
  simp only [encode, List.cons_append, List.getD_cons_zero, List.getD_cons_succ, encodedWord_toInt]
  refine ⟨Int.natCast_nonneg _, opcodeDigits_wordValue i, params_raw_eq_take i rest, fun k o ho => ?_⟩
  have hk : k < i.params.length := (List.getElem?_eq_some_iff.mp ho).1
  rw [modeDigitOf_wordValue i (hk.trans_le i.params_length_le), Instr.modeDigit_of_getElem? ho]

/-- Settles O2: a word that decodes is legal, a legal word decodes, and its digits tell to what. -/
theorem decodeReadsOpcodeAndModeDigits : Obligations.DecodeReadsOpcodeAndModeDigits := by
  intro v r0 r1 r2
  constructor
  · intro hill
    cases h : decode v r0 r1 r2 with
    | error e => exact ⟨e, rfl⟩
    | ok i => exact absurd hill (legal_of_decode_ok h)
  · intro hlegal
    obtain ⟨i, hi⟩ := decode_ok_of_legal hlegal r0 r1 r2
    obtain ⟨-, hop, hraw, hmode⟩ := decode_eq_ok_iff.mp hi
    exact ⟨i, hi, hop.symm, hraw, hmode⟩

/-- Settles O3: what a word decodes to is told by the opcode digits and the mode digits of the parameters alone. -/
theorem unusedDigitsAreIgnored : Obligations.UnusedDigitsAreIgnored := by
  intro v v' r0 r1 r2 i h hnonneg hop' hmode'
  obtain ⟨-, hop, hraw, hmode⟩ := decode_eq_ok_iff.mp h
  refine decode_eq_ok_iff.mpr ⟨hnonneg, hop'.trans hop, hraw, fun k o ho => ?_⟩
  rw [hmode' k (List.getElem?_eq_some_iff.mp ho).1, hmode k o ho]

/-- Settles O4: the bounds of the word value, which the encoded word holds. -/
theorem assembledWordsLieInOneTo22208 : Obligations.AssembledWordsLieInOneTo22208 := by
  intro i h
  obtain ⟨hlow, hhigh⟩ := Instr.wordValue_bounds h
  refine ⟨_, _, rfl, encodedWord_toInt i, ?_⟩
  rw [encodedWord_toInt]
  omega

/-- Settles O5: the decoder evaluated on the table's words. -/
theorem workedEncodingsDecode : Obligations.WorkedEncodingsDecode := by
  unfold Obligations.WorkedEncodingsDecode
  decide

end Sys2Proof

/-!
The operand resolver (40_operand_resolver.md): a reply of Faulted(f) is the latching of `f` and no more, any other reply keeps
the latch, and the proofs of the claims about the order of the checks.
-/

namespace Sys2Proof.Machine

/-! ### What a fault changes (R14, R218) -/

/-- An instruction that returns Faulted(f) has raised `f` and done nothing else (R218). -/
theorem execReply_eq_raise {c : Config} {i : Instr} {s : State} {f : Fault}
    (h : (execReply c i s).result = .faulted f) : execReply c i s = raise s f := by
  rcases execReply_cases c i s with ⟨g, e⟩ | ⟨d, p, -, -, -, e⟩ | ⟨-, e⟩ | ⟨d, p, r, -, -, -, e⟩ |
    ⟨d, p, v, rest, -, -, -, e⟩ | ⟨a, x, -, -, e⟩ | ⟨a, t, x, -, -, -, e⟩ | ⟨a, t, -, e⟩ | ⟨a, r, -, e⟩
  all_goals rw [e] at h ⊢
  case inl => rw [StepResult.faulted.inj h]
  all_goals simp at h

/-- An instruction that raises no fault keeps the latch (R29). -/
theorem execReply_fault_of_not_faulted {c : Config} {i : Instr} {s : State}
    (h : ∀ f, (execReply c i s).result ≠ .faulted f) : (execReply c i s).state.fault = s.fault := by
  rcases execReply_cases c i s with ⟨g, e⟩ | ⟨d, p, -, -, -, e⟩ | ⟨-, e⟩ | ⟨d, p, r, -, -, -, e⟩ |
    ⟨d, p, v, rest, -, -, -, e⟩ | ⟨a, x, -, -, e⟩ | ⟨a, t, x, -, -, -, e⟩ | ⟨a, t, -, e⟩ | ⟨a, r, -, e⟩
  case inl => exact absurd (congrArg Reply.result e) (h g)
  all_goals simp [e]

/-- On this hardware the first failing check is raised, and only the latch changes (R114, R218). -/
theorem faults_of_instrFault {i : Instr} {s : State} {f : Fault} (h : instrFault s i = some f) : Faults i s f := by
  have e : execReply hardware i s = raise s f := execReply_eq_raise ((execReply_faulted_iff i s f).mpr h)
  exact ⟨(exec_eq i s).trans (congrArg Host.Outcome.next (congrArg Reply.state e)), e⟩

/-- On this hardware an instruction none of whose checks fails keeps the latch. -/
theorem execReply_fault_of_instrFault_eq_none {i : Instr} {s : State} (h : instrFault s i = none) :
    (execReply hardware i s).state.fault = s.fault :=
  execReply_fault_of_not_faulted fun f hf => by simp [(execReply_faulted_iff i s f).mp hf] at h

/-! ### The claims -/

/-- Settles O20: the target's check stands before that of the jump taken, so with the condition resolved it is the first to fail. -/
theorem jumpsResolveTheirTargetEagerly : Obligations.JumpsResolveTheirTargetEagerly := by
  intro a t s f ha ht
  have first (jump : Option Fault) : firstFault [sourceFault s a, sourceFault s t, jump] = some f := by
    rw [ha, ht]
    rfl
  exact ⟨faults_of_instrFault (first _), faults_of_instrFault (first _)⟩

/-- Settles O25: a reply of Faulted(f) names the first failing check and changes the latch alone; any other keeps the latch. -/
theorem theFirstFailingCheckIsTheFault : Obligations.TheFirstFailingCheckIsTheFault :=
  fun i s => ⟨fun f => (execReply_faulted_iff i s f).symm, fun _ => faults_of_instrFault,
    fun h => ⟨_, exec_eq i s, execReply_fault_of_instrFault_eq_none h⟩⟩

end Sys2Proof.Machine

/-!
Arithmetic (41_arithmetic.md): what an F3 body stores where its parameters resolve, what the storing instructions leave unchanged,
and the proofs of the claims about them.
-/

namespace Sys2Proof.Machine

/-! ### Instructions that commit (R114, R180) -/

/-- An instruction whose reply is Advanced commits in the state of that reply. -/
theorem commits_of_execReply_eq_advanced {i : Instr} {s t : State} (h : execReply hardware i s = advanced t) :
    Commits i s t :=
  ⟨(exec_eq i s).trans (congrArg Host.Outcome.next (congrArg Reply.state h)), h⟩

/-- An F3 body whose parameters resolve stores the word it computes and moves past its 4 words (R130). -/
theorem storeResult_of_resolves {g : Word → Word → Except Fault Word} {a b d : Operand} {s : State} {r : Word}
    (h : F3Resolves s a b d) (hr : g (sourceValue s a) (sourceValue s b) = .ok r) :
    storeResult hardware g a b d s = advanced ((s.store (operandAddress s d) r).advance 4) := by
  obtain ⟨ha, hb, hd⟩ := h
  simp only [storeResult_eq, ha, hb, hd, firstFault, hr]

/-! ### Laws of the ALU (R132) -/

/-- Where both sources resolve, an F3 body with a commutative computation does not tell them apart. -/
theorem storeResult_comm {g : Word → Word → Except Fault Word} (hg : ∀ x y, g x y = g y x) {a b : Operand} {s : State}
    (ha : sourceFault s a = none) (hb : sourceFault s b = none) (d : Operand) :
    storeResult hardware g a b d s = storeResult hardware g b a d s := by
  rw [storeResult_eq, storeResult_eq, ha, hb, hg]

/-- Wrapping the exact negation of a word is negating it as a 64-bit word (R12). -/
theorem wrap64_neg (w : Word) : wrap64 (-w.toInt) = -w := by
  rw [wrap64, BitVec.ofInt_neg, BitVec.ofInt_toInt]

/-! ### The frame of a storing instruction (R130, R131, R160, R161, R218) -/

/-- Every reply of `add`, `mul`, `lt` and `eq`: a fault, or one store at the destination address and the advance. -/
theorem execReply_storing_cases (c : Config) {i : Instr} {a b d : Operand}
    (hi : i = .add a b d ∨ i = .mul a b d ∨ i = .lt a b d ∨ i = .eq a b d) (s : State) :
    (∃ f, execReply c i s = raise s f) ∨
    (∃ p r, writeAddr c s d = .ok p ∧ execReply c i s = advanced ((s.store p r).advance 4)) := by
  have body (g : Word → Word → Except Fault Word) : (∃ f, storeResult c g a b d s = raise s f) ∨
      (∃ p r, writeAddr c s d = .ok p ∧ storeResult c g a b d s = advanced ((s.store p r).advance 4)) := by
    rcases storeResult_cases c g a b d s with hf | ⟨x, y, p, r, -, -, hp, -, e⟩
    · exact .inl hf
    · exact .inr ⟨p, r, hp, e⟩
  rcases hi with rfl | rfl | rfl | rfl <;> exact body _

/-- On this hardware an instruction that fails a check leaves memory and `pc` as they were (R218). -/
theorem execReply_mem_pc_of_instrFault_ne_none {i : Instr} {s : State} (h : instrFault s i ≠ none) :
    (execReply hardware i s).state.mem = s.mem ∧ (execReply hardware i s).state.pc = s.pc := by
  obtain ⟨f, hf⟩ := Option.ne_none_iff_exists'.mp h
  obtain ⟨-, e⟩ := faults_of_instrFault hf
  rw [e]
  exact ⟨rfl, rfl⟩

/-! ### The claims -/

/-- Settles O11: the first failing check is raised, and the ALU's result is the one word congruent to the sum. -/
theorem addWritesTheWrappedSum : Obligations.AddWritesTheWrappedSum :=
  fun _ _ _ _ => ⟨fun _ => faults_of_instrFault, fun _ h hr =>
    commits_of_execReply_eq_advanced (storeResult_of_resolves h (congrArg Except.ok (wrap64_eq_of_dvd hr)))⟩

/-- Settles O12: the first failing check is raised, and the ALU's result is the one word congruent to the product. -/
theorem mulWritesTheWrappedProduct : Obligations.MulWritesTheWrappedProduct :=
  fun _ _ _ _ => ⟨fun _ => faults_of_instrFault, fun _ h hr =>
    commits_of_execReply_eq_advanced (storeResult_of_resolves h (congrArg Except.ok (wrap64_eq_of_dvd hr)))⟩

/-- Settles O24: the ALU's exact sums and products commute, and wrapping turns negation into that of 64-bit words. -/
theorem addAndMulCommute : Obligations.AddAndMulCommute := by
  refine ⟨fun a b d s ha hb => ⟨?_, ?_⟩, fun w => ?_⟩
  · have h : addReply hardware a b d s = addReply hardware b a d s :=
      storeResult_comm (fun x y => by rw [Int.add_comm]) ha hb d
    exact congrArg (fun r => Host.Outcome.next r.state) h
  · have h : mulReply hardware a b d s = mulReply hardware b a d s :=
      storeResult_comm (fun x y => by rw [Int.mul_comm]) ha hb d
    exact congrArg (fun r => Host.Outcome.next r.state) h
  · rw [wrap64_add, wrap64_neg]
    exact BitVec.add_right_neg w

/-- Settles O30: a fault changes the latch alone, and otherwise memory is one write at the destination address away. -/
theorem storingInstructionsFrame : Obligations.StoringInstructionsFrame := by
  intro a b d s t i hi hexec
  rw [exec_eq] at hexec
  obtain rfl := Host.Outcome.next.inj hexec
  have hlatch := execReply_fault_of_instrFault_eq_none (i := i) (s := s)
  have hfault := execReply_mem_pc_of_instrFault_ne_none (i := i) (s := s)
  rcases execReply_storing_cases hardware hi s with ⟨f, e⟩ | ⟨p, r, hp, e⟩ <;> rw [e] at hlatch hfault ⊢
  · exact ⟨rfl, rfl, rfl, hlatch, hfault, fun _ _ _ _ => rfl, fun _ _ _ => rfl, fun _ _ => .inl rfl⟩
  · refine ⟨rfl, rfl, rfl, hlatch, hfault, fun p' hp' q hq => ?_, fun f hf => ?_, fun p' hp' => ?_⟩
    · obtain rfl := Except.ok.inj (hp.symm.trans hp')
      exact s.mem.read_write_of_ne r hq
    · simp [hp] at hf
    · obtain rfl := Except.ok.inj (hp.symm.trans hp')
      exact .inr rfl

end Sys2Proof.Machine

/-!
Input and output (42_io.md): the three ways `in` can go and the one `out` commits, what the instructions that store no result
leave unchanged, and that a word behind the input queue's head is not looked at; with the proofs of the claims about them.
-/

namespace Sys2Proof.Machine

/-! ### `in` and `out` where their operand resolves (R140, R141) -/

/-- `in` with no word waiting pauses and changes nothing (R140). -/
theorem inReply_of_inq_nil {c : Config} {d : Operand} {s : State} {p : Nat}
    (hd : writeAddr c s d = .ok p) (hq : s.inq = []) : inReply c d s = ⟨s, .paused⟩ := by
  unfold inReply
  rw [hd, hq]
  rfl

/-- `in` with a word waiting takes it from the queue, stores it and moves past its 2 words (R140). -/
theorem inReply_of_inq_cons {c : Config} {d : Operand} {s : State} {p : Nat} {v : Word} {rest : List Word}
    (hd : writeAddr c s d = .ok p) (hq : s.inq = v :: rest) :
    inReply c d s = advanced (((s.setInq rest).store p v).advance 2) := by
  unfold inReply
  rw [hd, hq]
  rfl

/-- Where a destination raises no fault of this hardware, it resolves to its address (R113). -/
theorem writeAddr_of_resolves {s : State} {d : Operand} (h : destFault s d = none) :
    writeAddr hardware s d = .ok (operandAddress s d) := by
  rw [writeAddr_eq, h]

/-- `out` whose operand resolves appends its value to the output queue and moves past its 2 words (R141). -/
theorem outReply_of_resolves {a : Operand} {s : State} (h : sourceFault s a = none) :
    outReply a s = advanced ((s.pushOut (sourceValue s a)).advance 2) := by
  rw [outReply_eq, h]

/-! ### What an instruction leaves unchanged (R140, R141, R150, R151, R170, R171) -/

/-- Only `in` and the instructions of format F3 touch memory. -/
theorem execReply_mem (c : Config) (i : Instr) (s : State) :
    (execReply c i s).state.mem = s.mem ∨ i.length = 4 ∨ ∃ d, i = .inp d := by
  rcases execReply_cases c i s with ⟨f, e⟩ | ⟨d, p, -, -, -, e⟩ | ⟨-, e⟩ | ⟨d, p, r, hlen, -, -, -⟩ |
    ⟨d, p, v, rest, hi, -, -, -⟩ | ⟨a, x, -, -, e⟩ | ⟨a, t, x, -, -, -, e⟩ | ⟨a, t, -, e⟩ | ⟨a, r, -, e⟩
  case inr.inr.inr.inl => exact .inr (.inl hlen)
  case inr.inr.inr.inr.inl => exact .inr (.inr ⟨d, hi⟩)
  all_goals exact .inl (by simp [e])

/-- On this hardware an instruction that fails a check changes the latch alone (R218). -/
theorem execReply_state_of_instrFault_ne_none {i : Instr} {s : State} (h : instrFault s i ≠ none) :
    (execReply hardware i s).state = { s with fault := instrFault s i } := by
  obtain ⟨f, hf⟩ := Option.ne_none_iff_exists'.mp h
  obtain ⟨-, e⟩ := faults_of_instrFault hf
  rw [e, hf]

/-! ### A word pushed behind the input queue (R142) -/

/-- The reply whose state has `w` at the tail of its input queue. -/
def Reply.pushIn (w : Word) (r : Reply) : Reply := ⟨r.state.pushIn w, r.result⟩

section
variable {w : Word} {s : State} {c : Config}

@[simp] theorem readParam_pushIn (o : Operand) : readParam (s.pushIn w) o = readParam s o :=
  readParam_congr rfl rfl o

@[simp] theorem writeAddr_pushIn (o : Operand) : writeAddr c (s.pushIn w) o = writeAddr c s o :=
  writeAddr_congr rfl c o

@[simp] theorem nextAction_pushIn : nextAction (s.pushIn w) = nextAction s := rfl

/-- A computation that does not look at the queue ignores the pushed word if whatever follows it does: a fault it raises changes
the latch alone. -/
theorem conclude_bind_pushIn {α : Type} {e : Except Fault α} {k k' : α → Except Fault Reply}
    (h : ∀ x, conclude (s.pushIn w) (k' x) = (conclude s (k x)).pushIn w) :
    conclude (s.pushIn w) (e >>= k') = (conclude s (e >>= k)).pushIn w := by
  cases e with
  | error f => rfl
  | ok x => exact h x

theorem storeResult_pushIn (g : Word → Word → Except Fault Word) (a b d : Operand) :
    storeResult c g a b d (s.pushIn w) = (storeResult c g a b d s).pushIn w := by
  simp only [storeResult, readParam_pushIn, writeAddr_pushIn]
  exact conclude_bind_pushIn fun _ => conclude_bind_pushIn fun _ => conclude_bind_pushIn fun _ =>
    conclude_bind_pushIn fun _ => rfl

theorem jumpIf_pushIn (taken : Word → Bool) (a t : Operand) :
    jumpIf taken a t (s.pushIn w) = (jumpIf taken a t s).pushIn w := by
  simp only [jumpIf, readParam_pushIn]
  refine conclude_bind_pushIn fun x => conclude_bind_pushIn fun v => ?_
  by_cases ht : taken x = true
  · by_cases hv : v.toInt < 0 <;> simp only [ht, hv, if_true, if_false] <;> rfl
  · simp only [ht]
    rfl

theorem outReply_pushIn (a : Operand) : outReply a (s.pushIn w) = (outReply a s).pushIn w := by
  simp only [outReply, readParam_pushIn]
  exact conclude_bind_pushIn fun _ => rfl

theorem arbReply_pushIn (a : Operand) : arbReply c a (s.pushIn w) = (arbReply c a s).pushIn w := by
  simp only [arbReply, readParam_pushIn]
  exact conclude_bind_pushIn fun _ => conclude_bind_pushIn fun _ => rfl

/-- `in` looks at the head of the queue alone, unless there is none. -/
theorem inReply_pushIn {d : Operand} (h : (inReply c d s).result ≠ .paused) :
    inReply c d (s.pushIn w) = (inReply c d s).pushIn w := by
  rcases inReply_cases c d s with ⟨f, hd, e⟩ | ⟨p, -, -, e⟩ | ⟨p, v, rest, hd, hq, e⟩
  · rw [e, inReply_of_writeAddr_error ((writeAddr_pushIn d).trans hd)]
    rfl
  · exact absurd (congrArg Reply.result e) h
  · have hq' : (s.pushIn w).inq = v :: (rest ++ [w]) := by rw [State.pushIn_inq, hq, List.cons_append]
    rw [e, inReply_of_inq_cons ((writeAddr_pushIn d).trans hd) hq']
    rfl

theorem execReply_pushIn {i : Instr} (h : (execReply c i s).result ≠ .paused) :
    execReply c i (s.pushIn w) = (execReply c i s).pushIn w := by
  cases i with
  | add a b d | mul a b d | lt a b d | eq a b d => exact storeResult_pushIn _ a b d
  | inp d => exact inReply_pushIn h
  | out a => exact outReply_pushIn a
  | jt a t | jf a t => exact jumpIf_pushIn _ a t
  | arb a => exact arbReply_pushIn a
  | hlt => rfl

theorem stepReply_pushIn (h : (stepReply c s).result ≠ .paused) :
    stepReply c (s.pushIn w) = (stepReply c s).pushIn w := by
  unfold stepReply at h ⊢
  rw [nextAction_pushIn]
  cases hn : nextAction s with
  | execute i =>
    rw [hn] at h
    exact execReply_pushIn h
  | latched f | terminated | illegal => rfl

end

/-! ### The claims -/

/-- Settles O15: the destination is resolved before the queue is looked at, so its fault comes first; then the queue decides. -/
theorem inReadsOneWordOrPauses : Obligations.InReadsOneWordOrPauses := by
  refine fun d s => ⟨fun f hf => faults_of_instrFault (i := .inp d) hf, fun hd hq => ?_, fun v rest hd hq =>
    commits_of_execReply_eq_advanced (inReply_of_inq_cons (writeAddr_of_resolves hd) hq)⟩
  have e : execReply hardware (.inp d) s = ⟨s, .paused⟩ := inReply_of_inq_nil (writeAddr_of_resolves hd) hq
  exact ⟨(exec_eq _ s).trans (congrArg Host.Outcome.next (congrArg Reply.state e)), e⟩

/-- Settles O16: a resolved operand's value is pushed whatever the queue holds, and an operand's fault is latched alone. -/
theorem outAppendsToTheOutputQueue : Obligations.OutAppendsToTheOutputQueue :=
  fun a _ => ⟨fun _ hf => faults_of_instrFault (i := .out a) hf,
    fun h => commits_of_execReply_eq_advanced (outReply_of_resolves h)⟩

/-- Settles O31: `in` faults, pauses or stores one word, and each leaves what the claim says. -/
theorem inFrame : Obligations.InFrame := by
  intro d s t hexec
  rw [exec_eq] at hexec
  obtain rfl := Host.Outcome.next.inj hexec
  have hlatch : destFault s d = none → (execReply hardware (.inp d) s).state.fault = s.fault :=
    execReply_fault_of_instrFault_eq_none (i := .inp d)
  have hfault : destFault s d ≠ none → (execReply hardware (.inp d) s).state = { s with fault := destFault s d } :=
    execReply_state_of_instrFault_ne_none (i := .inp d)
  have hpause : destFault s d = none → s.inq = [] → (execReply hardware (.inp d) s).state = s :=
    fun hd hq => congrArg Reply.state (inReply_of_inq_nil (writeAddr_of_resolves hd) hq)
  rcases inReply_cases hardware d s with ⟨f, -, e⟩ | ⟨p, -, -, e⟩ | ⟨p, v, rest, hp, hq, e⟩
  all_goals
    change execReply hardware (.inp d) s = _ at e
    rw [e] at hlatch hfault hpause ⊢
  case inr.inr =>
    refine ⟨rfl, rfl, .inr (by rw [hq]; rfl), hlatch, hfault, fun p' hp' q hne => ?_, fun f hf => ?_,
      fun p' hp' => ?_, hpause⟩
    · obtain rfl := Except.ok.inj (hp.symm.trans hp')
      exact s.mem.read_write_of_ne v hne
    · simp [hp] at hf
    · obtain rfl := Except.ok.inj (hp.symm.trans hp')
      exact .inr rfl
  all_goals exact ⟨rfl, rfl, .inl rfl, hlatch, hfault, fun _ _ _ _ => rfl, fun _ _ _ => rfl, fun _ _ => .inl rfl, hpause⟩

/-- Settles O32: none of these touches memory or the input queue, only `out` and `arb` reach the output queue and the relative
base, and a failed check changes the latch alone. -/
theorem nonStoringInstructionsFrame : Obligations.NonStoringInstructionsFrame := by
  intro a b s t i hi hexec
  rw [exec_eq] at hexec
  obtain rfl := Host.Outcome.next.inj hexec
  have hmem : (execReply hardware i s).state.mem = s.mem := by
    refine (execReply_mem hardware i s).resolve_right ?_
    rcases hi with rfl | rfl | rfl | rfl | rfl <;> simp [Instr.length]
  refine ⟨hmem, fun q => by rw [hmem], ?_, execReply_fault_of_instrFault_eq_none, fun h => ?_, fun hout => ?_, fun harb => ?_⟩
  · refine (execReply_inq hardware i s).resolve_right ?_
    rintro ⟨v, d, -, rfl⟩
    simp at hi
  · rw [execReply_state_of_instrFault_ne_none h]
    exact ⟨rfl, rfl, rfl⟩
  · refine (execReply_outq hardware i s).resolve_right ?_
    rintro ⟨v, a', -, rfl⟩
    exact hout (by simpa using hi)
  · refine (execReply_rb hardware i s).resolve_right ?_
    rintro ⟨a', rfl⟩
    exact harb (by simpa using hi)

/-- Settles O39: every instruction commutes with pushing a word behind the queue, but an `in` that finds none. -/
theorem laterInputIsInvisible : Obligations.LaterInputIsInvisible :=
  fun _ _ _ h => stepReply_pushIn h

end Sys2Proof.Machine

/-!
Conditional jumps (43_jumps.md): the three ways a jump whose parameters resolve can go, and the proofs of the claims about them.
-/

namespace Sys2Proof.Machine

/-! ### The two tests of the condition -/

theorem isTrue_iff {x : Word} : isTrue x = true ↔ x ≠ 0 := decide_eq_true_iff

theorem not_isTrue_iff {x : Word} : (!isTrue x) = true ↔ x = 0 := by
  rw [Bool.not_eq_true', ← Bool.not_eq_true, isTrue_iff, not_not]

section
variable {taken : Word → Bool} {a t : Operand} {s : State}

/-! ### A jump whose parameters resolve (R150, R151, R152) -/

/-- A jump that is not taken moves past its 3 words, whatever its target's value. -/
theorem jumpIf_of_not_taken (ha : sourceFault s a = none) (ht : sourceFault s t = none)
    (h : ¬ taken (sourceValue s a) = true) : jumpIf taken a t s = advanced (s.advance 3) := by
  simp [jumpIf_eq, ha, ht, h, targetFault, firstFault]

/-- A taken jump accepts every target that is not negative, inside memory or not. -/
theorem jumpIf_of_target_nonneg (ha : sourceFault s a = none) (ht : sourceFault s t = none)
    (h : taken (sourceValue s a) = true) (hv : 0 ≤ (sourceValue s t).toInt) :
    jumpIf taken a t s = advanced (s.setPc (sourceValue s t)) := by
  simp [jumpIf_eq, ha, ht, h, hv.not_gt, targetFault, firstFault]

/-- A taken jump to a negative target raises InvalidAddress (D9). -/
theorem jumpIf_of_target_neg (ha : sourceFault s a = none) (ht : sourceFault s t = none)
    (h : taken (sourceValue s a) = true) (hv : (sourceValue s t).toInt < 0) :
    jumpIf taken a t s = raise s .invalidAddress := by
  simp [jumpIf_eq, ha, ht, h, hv, targetFault, firstFault]

/-- Both jumps are the one body, each with its own test of the condition. -/
theorem execReply_eq_jumpIf {i : Instr} {P : Prop} (c : Config)
    (hi : (i = .jt a t ∧ (P ↔ sourceValue s a ≠ 0)) ∨ (i = .jf a t ∧ (P ↔ sourceValue s a = 0))) :
    ∃ taken, execReply c i s = jumpIf taken a t s ∧ (taken (sourceValue s a) = true ↔ P) := by
  rcases hi with ⟨rfl, hP⟩ | ⟨rfl, hP⟩
  · exact ⟨isTrue, rfl, isTrue_iff.trans hP.symm⟩
  · exact ⟨fun x => !isTrue x, rfl, not_isTrue_iff.trans hP.symm⟩

end

/-- A core whose latch is clear, with `pc` at a non-negative word at or beyond `mem_len`, is terminated: the next step is Halted. -/
theorem stepReply_of_pc_beyond (c : Config) {s : State} (hf : s.fault = none) (hpc : 0 ≤ s.pc.toInt)
    (h : (s.mem.len : Int) ≤ s.pc.toInt) : stepReply c s = ⟨s, .halted⟩ := by
  have hlt := toNat_lt_of_toInt_nonneg hpc
  rw [BitVec.toInt_eq_toNat_of_lt (by omega)] at h
  exact stepReply_of_terminated c hf (by omega)

/-! ### The claims -/

/-- Settles O17: the first failing check is raised, and otherwise a condition that is not zero takes the jump. -/
theorem jtJumpsIfNotZero : Obligations.JtJumpsIfNotZero := by
  refine fun a t s => ⟨fun f => faults_of_instrFault, fun ha ht => ⟨fun hne hv => ?_, fun hz => ?_⟩⟩
  · exact commits_of_execReply_eq_advanced (jumpIf_of_target_nonneg ha ht (isTrue_iff.mpr hne) hv)
  · exact commits_of_execReply_eq_advanced (jumpIf_of_not_taken ha ht fun h => isTrue_iff.mp h hz)

/-- Settles O18: the first failing check is raised, and otherwise a condition of zero takes the jump. -/
theorem jfJumpsIfZero : Obligations.JfJumpsIfZero := by
  refine fun a t s => ⟨fun f => faults_of_instrFault, fun ha ht => ⟨fun hz hv => ?_, fun hne => ?_⟩⟩
  · exact commits_of_execReply_eq_advanced
      (jumpIf_of_target_nonneg (taken := fun x => !isTrue x) ha ht (not_isTrue_iff.mpr hz) hv)
  · exact commits_of_execReply_eq_advanced
      (jumpIf_of_not_taken (taken := fun x => !isTrue x) ha ht fun h => hne (not_isTrue_iff.mp h))

/-- Settles O19: the target's sign is looked at only where the jump is taken, and `mem_len` only by the next step. -/
theorem jumpTargetsAreCheckedWhenTaken : Obligations.JumpTargetsAreCheckedWhenTaken := by
  intro a t s ha ht i P hi
  obtain ⟨taken, e, htaken⟩ := execReply_eq_jumpIf hardware hi
  refine ⟨fun hP hv => ?_, fun hP => ?_, fun hP hv => ⟨?_, fun hf hlen => ?_⟩⟩
  · have hraise := e.trans (jumpIf_of_target_neg ha ht (htaken.mpr hP) hv)
    exact faults_of_instrFault ((execReply_faulted_iff i s _).mp (congrArg Reply.result hraise))
  · exact commits_of_execReply_eq_advanced (e.trans (jumpIf_of_not_taken ha ht (mt htaken.mp hP)))
  · exact commits_of_execReply_eq_advanced (e.trans (jumpIf_of_target_nonneg ha ht (htaken.mpr hP) hv))
  · exact stepReply_of_pc_beyond hardware hf hv hlen

end Sys2Proof.Machine

/-!
Comparisons (44_compare.md): what the two comparisons decide, the word they write for it, and the proofs of the claims about them.
-/

namespace Sys2Proof.Machine

/-! ### The two comparisons and their word (R160, R161) -/

theorem lessThan_iff {x y : Word} : lessThan x y = true ↔ x.toInt < y.toInt := decide_eq_true_iff

/-- Words are equal exactly if the integers they stand for are. -/
theorem equals_iff {x y : Word} : equals x y = true ↔ x.toInt = y.toInt :=
  decide_eq_true_iff.trans BitVec.toInt_inj.symm

/-- A comparison that decides `P` writes 1 if `P` holds and 0 otherwise. -/
theorem truthWord_eq_ite {b : Bool} {P : Prop} [Decidable P] (h : b = true ↔ P) : truthWord b = if P then 1 else 0 :=
  if_congr h rfl rfl

/-! ### The claims -/

/-- Settles O13: the first failing check is raised, and otherwise the word stored is that of the signed order. -/
theorem ltWritesTheSignedComparison : Obligations.LtWritesTheSignedComparison :=
  fun _ _ _ _ => ⟨fun _ => faults_of_instrFault, fun h =>
    commits_of_execReply_eq_advanced (storeResult_of_resolves h (congrArg Except.ok (truthWord_eq_ite lessThan_iff)))⟩

/-- Settles O14: the first failing check is raised, and otherwise the word stored is that of the equality. -/
theorem eqWritesTheEquality : Obligations.EqWritesTheEquality :=
  fun _ _ _ _ => ⟨fun _ => faults_of_instrFault, fun h =>
    commits_of_execReply_eq_advanced (storeResult_of_resolves h (congrArg Except.ok (truthWord_eq_ite equals_iff)))⟩

end Sys2Proof.Machine

/-!
The relative base and halt (45_relbase_halt.md): an instruction with no relative-mode parameter does not look at the relative base,
the state after `hlt` is kept by every host call, and a word that is no instruction is found so again at every step; with the proofs
of the claims about them.
-/

namespace Sys2Proof.Machine

/-! ### The relative base is read through relative-mode parameters alone (R24, R170) -/

/-- The reply whose state has the relative base `r`. -/
def Reply.setRb (r : Word) (reply : Reply) : Reply := ⟨reply.state.setRb r, reply.result⟩

section
variable {r : Word} {s : State} {c : Config} {a b d t : Operand}

/-- Only a relative-mode source looks at the relative base (R111). -/
theorem readParam_setRb {o : Operand} (h : o.mode ≠ .relative) : readParam (s.setRb r) o = readParam s o := by
  obtain ⟨mode, raw⟩ := o
  cases mode with
  | relative => exact absurd rfl h
  | position | immediate | illegal _ => rfl

/-- Only a relative-mode destination looks at the relative base (R111). -/
theorem writeAddr_setRb {o : Operand} (h : o.mode ≠ .relative) : writeAddr c (s.setRb r) o = writeAddr c s o := by
  obtain ⟨mode, raw⟩ := o
  cases mode with
  | relative => exact absurd rfl h
  | position | immediate | illegal _ => rfl

/-- A computation that does not look at the relative base carries it along if whatever follows does: a fault it raises changes the
latch alone. -/
theorem conclude_bind_setRb {α : Type} {e : Except Fault α} {k k' : α → Except Fault Reply}
    (h : ∀ x, conclude (s.setRb r) (k' x) = (conclude s (k x)).setRb r) :
    conclude (s.setRb r) (e >>= k') = (conclude s (e >>= k)).setRb r := by
  cases e with
  | error f => rfl
  | ok x => exact h x

theorem storeResult_setRb (g : Word → Word → Except Fault Word) (ha : a.mode ≠ .relative) (hb : b.mode ≠ .relative)
    (hd : d.mode ≠ .relative) : storeResult c g a b d (s.setRb r) = (storeResult c g a b d s).setRb r := by
  simp only [storeResult, readParam_setRb ha, readParam_setRb hb, writeAddr_setRb hd]
  exact conclude_bind_setRb fun _ => conclude_bind_setRb fun _ => conclude_bind_setRb fun _ =>
    conclude_bind_setRb fun _ => rfl

theorem jumpIf_setRb (taken : Word → Bool) (ha : a.mode ≠ .relative) (ht : t.mode ≠ .relative) :
    jumpIf taken a t (s.setRb r) = (jumpIf taken a t s).setRb r := by
  simp only [jumpIf, readParam_setRb ha, readParam_setRb ht]
  refine conclude_bind_setRb fun x => conclude_bind_setRb fun v => ?_
  by_cases hx : taken x = true
  · by_cases hv : v.toInt < 0 <;> simp only [hx, hv, if_true, if_false] <;> rfl
  · simp only [hx]
    rfl

theorem inReply_setRb (hd : d.mode ≠ .relative) : inReply c d (s.setRb r) = (inReply c d s).setRb r := by
  simp only [inReply, writeAddr_setRb hd, State.setRb_inq]
  refine conclude_bind_setRb fun p => ?_
  cases s.inq <;> rfl

theorem outReply_setRb (ha : a.mode ≠ .relative) : outReply a (s.setRb r) = (outReply a s).setRb r := by
  simp only [outReply, readParam_setRb ha]
  exact conclude_bind_setRb fun _ => rfl

/-- An instruction other than `arb` with no relative-mode parameter does the same under every relative base, and keeps it. -/
theorem execReply_setRb {i : Instr} (harb : ∀ a, i ≠ .arb a) (h : ∀ o ∈ i.params, o.mode ≠ .relative) :
    execReply c i (s.setRb r) = (execReply c i s).setRb r := by
  cases i with
  | add a b d | mul a b d | lt a b d | eq a b d =>
    simp only [Instr.params, List.forall_mem_cons] at h
    obtain ⟨ha, hb, hd, -⟩ := h
    exact storeResult_setRb _ ha hb hd
  | jt a t | jf a t =>
    simp only [Instr.params, List.forall_mem_cons] at h
    obtain ⟨ha, ht, -⟩ := h
    exact jumpIf_setRb _ ha ht
  | inp d => exact inReply_setRb (h d (List.mem_singleton_self d))
  | out a => exact outReply_setRb (h a (List.mem_singleton_self a))
  | arb a => exact absurd rfl (harb a)
  | hlt => rfl

end

/-- `arb` whose operand resolves adds it to the relative base and moves past its 2 words (R170). -/
theorem arbReply_of_resolves {a : Operand} {s : State} (h : sourceFault s a = none) :
    arbReply hardware a s =
      advanced ((s.setRb (wrap64 (s.rb.toInt + (sourceValue s a).toInt))).advance 2) := by
  rw [arbReply_eq, h]

/-! ### The state after `hlt` (R171, R187) -/

/-- Halted for good on this hardware: with the latch clear and `pc` at the sentinel, memory is within the capacity, which no store
exceeds. -/
structure State.HaltedForGood (s : State) : Prop where
  fault_eq : s.fault = none
  pc_eq : s.pc = pcHalt
  len_le : s.mem.len ≤ hardware.memCap

/-- The sentinel is not below any possible `mem_len`. -/
theorem State.HaltedForGood.len_le_pc {s : State} (h : s.HaltedForGood) : s.mem.len ≤ s.pc.toNat := by
  rw [h.pc_eq]
  exact h.len_le

/-- A core halted for good answers Halted and stays as it is, under any configuration. -/
theorem stepReply_of_haltedForGood (c : Config) {s : State} (h : s.HaltedForGood) : stepReply c s = ⟨s, .halted⟩ :=
  stepReply_of_terminated c h.fault_eq h.len_le_pc

/-- Every host call keeps a core halted for good: a step changes nothing, and the other calls reach only queues and memory. -/
theorem hostCall_haltedForGood (k : HostCall) {s : State} (h : s.HaltedForGood) :
    (hostCall hardware k s).2.HaltedForGood := by
  have hlen := hostCall_len_le_capacity k h.len_le
  rcases hostCall_cases hardware k s with ⟨-, e⟩ | ⟨-, q, o, e⟩ | ⟨-, a, v, -, -, e⟩
  · rwa [e, stepReply_of_haltedForGood hardware h]
  all_goals
    rw [e] at hlen ⊢
    exact ⟨h.fault_eq, h.pc_eq, hlen⟩

/-! ### Words that are no instruction (R172) -/

/-- A word that is no instruction does not decode, whatever words follow it (R82, R92). -/
theorem decode_error_of_illegal {v : Word} (h : IllegalWord v) (r0 r1 r2 : Word) : ∃ e, decode v r0 r1 r2 = .error e := by
  cases hd : decode v r0 r1 r2 with
  | error e => exact ⟨e, rfl⟩
  | ok i => exact absurd h (legal_of_decode_ok hd)

/-- A step that finds such a word at `pc` raises UnknownOpcode, under any configuration. -/
theorem stepReply_of_illegal (c : Config) {s : State} (hf : s.fault = none) (hin : s.pc.toNat < s.mem.len)
    (hw : IllegalWord (s.mem.read s.pc.toNat)) : stepReply c s = raise s .unknownOpcode := by
  unfold stepReply
  rw [nextAction_illegal.mpr ⟨hf, hin, decode_error_of_illegal hw _ _ _⟩]

/-- The change of state of a step is that of its reply. -/
theorem step_of_stepReply {s t : State} {result : StepResult} (h : stepReply hardware s = ⟨t, result⟩) :
    step s = .next t := by
  rw [step_eq, h]

/-! ### The claims -/

/-- Settles O22: `hlt` leaves a core halted for good, which every host call keeps. -/
theorem hltHaltsForGood : Obligations.HltHaltsForGood := by
  refine fun s => ⟨rfl, rfl, fun hf hlen calls => ?_⟩
  have h : (hostCalls hardware calls (s.setPc pcHalt)).HaltedForGood :=
    hostCalls_induction (fun k _ => hostCall_haltedForGood k) calls ⟨hf, rfl, hlen⟩
  exact ⟨(State.terminated_iff _).mpr h.len_le_pc, congrArg BitVec.toNat h.pc_eq, stepReply_of_haltedForGood hardware h⟩

/-- Settles O21: the ALU's result is the one word congruent to the sum, and the bodies of the other instructions neither set the
relative base nor look at it but to resolve a relative-mode parameter. -/
theorem arbAdjustsTheRelativeBase : Obligations.ArbAdjustsTheRelativeBase := by
  refine ⟨fun a s f => faults_of_instrFault (i := .arb a), fun a s w h hw => ?_,
    fun i s harb => ⟨fun t ht => ?_, fun h w => ?_⟩⟩
  · refine commits_of_execReply_eq_advanced ((arbReply_of_resolves h).trans ?_)
    rw [wrap64_eq_of_dvd hw]
    rfl
  · rw [exec_eq] at ht
    obtain rfl := Host.Outcome.next.inj ht
    exact (execReply_rb hardware i s).resolve_right fun ⟨a, ha⟩ => harb a ha
  · refine ⟨_, exec_eq i s, (exec_eq i (s.setRb w)).trans ?_⟩
    rw [execReply_setRb harb h]
    rfl

/-- Settles O23: such a word is fetched as no instruction, and the latch it sets is what every later step finds. -/
theorem illegalWordsRaiseUnknownOpcode : Obligations.IllegalWordsRaiseUnknownOpcode := by
  intro s hf hin hw t
  have first : stepReply hardware s = ⟨t, .faulted .unknownOpcode⟩ := stepReply_of_illegal hardware hf hin hw
  have later : stepReply hardware t = ⟨t, .faulted .unknownOpcode⟩ := stepReply_of_latched hardware rfl
  exact ⟨step_of_stepReply first, first, step_of_stepReply later, later⟩

end Sys2Proof.Machine

/-!
The host interface (46_host_interface.md): the result of a step as a condition on the state before and after it, what pushing input,
popping output and writing memory do, and the proofs of the claims about them.
-/

namespace Sys2Proof.Machine

/-! ### The result of an instruction (R180, R182) -/

/-- `hlt` alone returns Halted (R171). -/
theorem execReply_halted_iff (c : Config) (i : Instr) (s : State) :
    (execReply c i s).result = .halted ↔ i = .hlt := by
  constructor
  · intro h
    rcases execReply_cases c i s with ⟨f, e⟩ | ⟨d, p, -, -, -, e⟩ | ⟨hi, -⟩ | ⟨d, p, r, -, -, -, e⟩ |
      ⟨d, p, v, rest, -, -, -, e⟩ | ⟨a, x, -, -, e⟩ | ⟨a, t, x, -, -, -, e⟩ | ⟨a, t, -, e⟩ | ⟨a, r, -, e⟩
    case inr.inr.inl => exact hi
    all_goals simp [e] at h
  · rintro rfl
    rfl

/-- On this hardware a destination resolves exactly if it raises no fault, and then to its address (R113). -/
theorem writeAddr_hardware_eq_ok_iff {s : State} {d : Operand} {p : Nat} :
    writeAddr hardware s d = .ok p ↔ destFault s d = none ∧ operandAddress s d = p := by
  rw [writeAddr_eq]
  cases destFault s d <;> simp

/-- On this hardware an instruction returns Advanced exactly if it is not `hlt`, none of its checks fails, and it is no `in` that
finds the queue empty: the three other results are what these conditions exclude. -/
theorem execReply_advanced_iff (i : Instr) (s : State) :
    (execReply hardware i s).result = .advanced ↔
      i ≠ .hlt ∧ instrFault s i = none ∧ ¬ ((∃ d, i = .inp d) ∧ s.inq = []) := by
  have hhalt := execReply_halted_iff hardware i s
  have hpause := execReply_paused_iff hardware i s
  have hfault := execReply_faulted_iff i s
  constructor
  · intro h
    rw [h] at hhalt hpause hfault
    have hnone : instrFault s i = none := Option.eq_none_iff_forall_ne_some.mpr fun f hf => by
      simpa using (hfault f).mpr hf
    refine ⟨fun hi => by simpa using hhalt.mpr hi, hnone, ?_⟩
    rintro ⟨⟨d, rfl⟩, hq⟩
    simpa using hpause.mpr ⟨d, _, rfl, writeAddr_of_resolves hnone, hq⟩
  · rintro ⟨hhlt, hnone, hin⟩
    cases hr : (execReply hardware i s).result with
    | advanced => rfl
    | halted => exact absurd (hhalt.mp hr) hhlt
    | paused =>
      obtain ⟨d, p, hi, -, hq⟩ := hpause.mp hr
      exact absurd ⟨⟨d, hi⟩, hq⟩ hin
    | faulted f => simp [(hfault f).mp hr] at hnone

/-- An instruction begun with the latch clear returns Faulted(f) exactly if it leaves `f` latched (R218). -/
theorem execReply_faulted_iff_latched {c : Config} {i : Instr} {s : State} (hs : s.fault = none) (f : Fault) :
    (execReply c i s).result = .faulted f ↔ (execReply c i s).state.fault = some f := by
  constructor
  · intro h
    rw [execReply_eq_raise h]
    rfl
  · intro h
    cases hr : (execReply c i s).result with
    | faulted g =>
      rw [execReply_eq_raise hr] at h
      exact congrArg StepResult.faulted (Option.some.inj h)
    | advanced | paused | halted =>
      rw [execReply_fault_of_not_faulted (by simp [hr]), hs] at h
      simp at h

/-! ### The result of a step (R180, R182) -/

/-- A step that finds an instruction is its execution (R180). -/
theorem stepReply_of_execute (c : Config) {s : State} {i : Instr} (h : nextAction s = .execute i) :
    stepReply c s = execReply c i s := by
  unfold stepReply
  rw [h]

/-- A step returns Advanced only by executing an instruction that does. -/
theorem stepReply_advanced_iff (c : Config) (s : State) :
    (stepReply c s).result = .advanced ↔
      ∃ i, nextAction s = .execute i ∧ (execReply c i s).result = .advanced := by
  unfold stepReply
  cases nextAction s <;> simp

/-- A step returns Halted exactly on a terminated core with the latch clear, or by executing `hlt`. -/
theorem stepReply_halted_iff (c : Config) (s : State) :
    (stepReply c s).result = .halted ↔
      s.fault = none ∧ (s.mem.len ≤ s.pc.toNat ∨ nextAction s = .execute .hlt) := by
  have found : (stepReply c s).result = .halted ↔ nextAction s = .terminated ∨ nextAction s = .execute .hlt := by
    unfold stepReply
    cases nextAction s <;> simp [execReply_halted_iff]
  rw [found, nextAction_terminated, and_or_left, and_iff_right_of_imp fun h => (nextAction_execute.mp h).1]

/-- A step returns Paused only where it changes nothing (R140). -/
theorem stepReply_state_of_paused {c : Config} {s : State} (h : (stepReply c s).result = .paused) :
    (stepReply c s).state = s := by
  obtain ⟨d, p, hd, hp, hq⟩ := (stepReply_paused_iff c s).mp h
  rw [stepReply_of_execute c hd]
  exact congrArg Reply.state (inReply_of_inq_nil hp hq)

/-- A step returns Faulted(f) exactly if it leaves `f` latched, whether it raises `f` or finds it (R218, R219). -/
theorem stepReply_faulted_iff_latched (c : Config) (s : State) (f : Fault) :
    (stepReply c s).result = .faulted f ↔ (stepReply c s).state.fault = some f := by
  rcases stepReply_cases c s with ⟨g, hg, e⟩ | ⟨hf, -, e⟩ | ⟨-, -, -, e⟩ | ⟨i, hf, -, -, e⟩ <;> rw [e]
  · simp [hg]
  · simp [hf]
  · simp
  · exact execReply_faulted_iff_latched hf f

/-! ### Pushing input (R183) -/

/-- Pushing words one after the other puts them at the tail of the input queue in that order. -/
theorem hostCalls_map_pushInput (c : Config) (ys : List Word) (s : State) :
    hostCalls c (ys.map HostCall.pushInput) s = s.setInq (s.inq ++ ys) := by
  induction ys generalizing s with
  | nil =>
    rw [List.append_nil]
    rfl
  | cons y ys ih =>
    have := ih (s.pushIn y)
    rw [State.pushIn_inq, List.append_assoc] at this
    exact this

/-- An `in` that found the queue empty takes exactly the word then pushed (R183, R259). -/
theorem inReply_pushInput_of_inq_nil {c : Config} {d : Operand} {s : State} {p : Nat}
    (hd : writeAddr c s d = .ok p) (hq : s.inq = []) (v : Word) :
    inReply c d (pushInput v s) = advanced ((s.store p v).advance 2) := by
  have hq' : (s.pushIn v).inq = [v] := by rw [State.pushIn_inq, hq, List.nil_append]
  have hset : (s.pushIn v).setInq [] = s := by
    rw [← hq]
    rfl
  rw [pushInput, inReply_of_inq_cons ((writeAddr_pushIn d).trans hd) hq', hset]

/-! ### Output and memory (R184 to R186) -/

/-- Calling `pop_output` until it returns none collects the whole output queue and empties it. -/
theorem popAll_eq_outputDrain (s : State) : popAll (s.outq.length + 1) s = outputDrain s := by
  obtain ⟨pc, rb, mem, inq, outq, fault⟩ := s
  induction outq with
  | nil => rfl
  | cons h rest ih =>
    rw [outputDrain] at ih ⊢
    rw [popAll]
    exact congrArg (fun r : List Word × State => (h :: r.1, r.2)) ih

section
variable {c : Config} {a : Int} {s : State}

/-- Outside the address space `set_memory` is refused, whatever the capacity. -/
theorem setMemory_of_invalid (v : Word) (h : a < 0 ∨ 2 ^ 63 - 1 < a) :
    setMemory c a v s = .error .invalidAddress :=
  if_pos h

/-- Inside the address space the capacity decides. -/
theorem setMemory_of_valid (v : Word) (h0 : 0 ≤ a) (hmax : a ≤ 2 ^ 63 - 1) :
    setMemory c a v s = if c.memCap ≤ a.toNat then .error .capacityExceeded else .ok (s.store a.toNat v) :=
  if_neg (not_or.mpr ⟨h0.not_gt, hmax.not_gt⟩)

end

/-! ### The claims -/

/-- Settles O35: each result is a condition on what the step finds, and the latch after the step is that of the fault returned. -/
theorem stepResultsMeanWhatTheySay : Obligations.StepResultsMeanWhatTheySay := by
  intro s
  refine ⟨?_, ?_, stepReply_state_of_paused, stepReply_halted_iff hardware s, stepReply_faulted_iff_latched hardware s⟩
  · simp only [stepReply_advanced_iff, execReply_advanced_iff]
  · simp [stepReply_paused_iff, writeAddr_hardware_eq_ok_iff]

/-- Settles O40: the pause changes nothing, so the same `in` is found again, now with one word in the queue. -/
theorem pushedInputResumesAPausedCore : Obligations.PushedInputResumesAPausedCore := by
  intro s v h
  obtain ⟨d, p, hd, hp, hq⟩ := (stepReply_paused_iff hardware s).mp h
  obtain ⟨-, rfl⟩ := writeAddr_hardware_eq_ok_iff.mp hp
  have again : nextAction (pushInput v s) = .execute (.inp d) := nextAction_pushIn.trans hd
  exact ⟨stepReply_state_of_paused h, d, hd,
    (stepReply_of_execute hardware again).trans (inReply_pushInput_of_inq_nil hp hq v)⟩

/-- Settles O44: the length of the image decides alike on both sides, and pushes append to the queue the load made. -/
theorem initialInputsAreEarlyPushes : Obligations.InitialInputsAreEarlyPushes := by
  intro c program xs ys
  by_cases h : c.memCap < program.length
  · simp only [load, if_pos h]
  · simp only [load, if_neg h, hostCalls_map_pushInput]
    rfl

/-- Settles O47: with the two amounts of fuel added, both replies are what one run returns. -/
theorem runReturnsOneReply : Obligations.RunReturnsOneReply := by
  rintro c s r r' ⟨n, hn⟩ ⟨m, hm⟩
  have hr := runFuel_add n m s r hn
  have hr' := runFuel_add m n s r' hm
  rw [Nat.add_comm, hr] at hr'
  exact Option.some.inj hr'

/-- Settles O49: the address space is checked first, then the capacity, and a write that passes both is a store. -/
theorem setMemoryWritesOrIsRefused : Obligations.SetMemoryWritesOrIsRefused := by
  refine fun c a v s => ⟨fun h => ?_, fun ⟨h0, hmax⟩ hcap => ?_, fun ⟨h0, hmax⟩ hcap => ?_⟩
  · rw [hostCall, setMemory_of_invalid v h]
  · rw [hostCall, setMemory_of_valid v h0 hmax, if_pos hcap]
  · rw [hostCall, setMemory_of_valid v h0 hmax, if_neg hcap.not_ge]
    rfl

/-- Settles O50: popping takes the head of the queue, so repeating it collects the queue in order. -/
theorem drainIsRepeatedPop : Obligations.DrainIsRepeatedPop := by
  refine fun s => ⟨rfl, popAll_eq_outputDrain s, fun hq => ?_, fun h rest hq => ?_⟩ <;> rw [popOutput, hq]
  rfl

/-- Settles O33: the words at `pc` are what the step fetches, so the instruction they decode to is what it finds. -/
theorem stepExecutesTheDecodedInstruction : Obligations.StepExecutesTheDecodedInstruction := by
  intro s i hf hin hdecode
  have e := stepReply_of_execute hardware (nextAction_execute.mpr ⟨hf, hin, hdecode⟩)
  exact ⟨by rw [step_eq, exec_eq, e], e⟩

/-- Settles O34: what a step of a faulted or of a terminated core answers leaves the state as it was. -/
theorem faultedAndTerminatedCoresStayAsTheyAre : Obligations.FaultedAndTerminatedCoresStayAsTheyAre := by
  refine fun s => ⟨fun f hf => ?_, fun hf hend => ?_⟩
  · have e := stepReply_of_latched hardware hf
    exact ⟨step_of_stepReply e, e⟩
  · have e := stepReply_of_terminated hardware hf hend
    exact ⟨step_of_stepReply e, e⟩

/-- Settles O51: a call other than a step changes the queues alone or memory alone. -/
theorem hostCallsKeepTheControlState : Obligations.HostCallsKeepTheControlState := by
  intro c k s hk
  rcases hostCall_cases c k s with ⟨hstep, -⟩ | ⟨-, q, o, e⟩ | ⟨-, a, v, -, -, e⟩
  · exact absurd hstep hk
  all_goals
    rw [e]
    exact ⟨rfl, rfl, rfl⟩

end Sys2Proof.Machine

/-!
Exceptions (60_exceptions.md): a step that returns a fault latches it and changes nothing else, a latched fault outlives every host
call, and the proofs of the claims about them.
-/

namespace Sys2Proof.Machine

/-! ### Precise faults (R218) -/

/-- A step that returns Faulted(f) has raised `f`, or has found it latched, where raising it again changes nothing. -/
theorem stepReply_eq_raise {c : Config} {s : State} {f : Fault} (h : (stepReply c s).result = .faulted f) :
    stepReply c s = raise s f := by
  rcases stepReply_cases c s with ⟨g, hg, e⟩ | ⟨-, -, e⟩ | ⟨-, -, -, e⟩ | ⟨i, -, -, -, e⟩ <;> rw [e] at h ⊢
  · obtain rfl := StepResult.faulted.inj h
    rw [raise, takeFault_of_latched s hg]
  · simp at h
  · rw [StepResult.faulted.inj h]
  · exact execReply_eq_raise h

/-! ### Sticky faults (R219) -/

/-- No host call clears or replaces a latched fault: a step leaves a faulted core as it is, and the other calls reach only the
queues and memory. -/
theorem hostCall_fault_of_latched {c : Config} (k : HostCall) {s : State} {f : Fault} (h : s.fault = some f) :
    (hostCall c k s).2.fault = some f := by
  rcases hostCall_cases c k s with ⟨-, e⟩ | ⟨-, q, o, e⟩ | ⟨-, a, v, -, -, e⟩ <;> rw [e]
  · rwa [stepReply_of_latched c h]
  · exact h
  · exact h

/-- `run` returns the reply of its first step unless that is Advanced (R181). -/
theorem runFuel_succ_of_not_advanced {c : Config} {s : State} (h : (stepReply c s).result ≠ .advanced) (n : Nat) :
    runFuel c (n + 1) s = some (stepReply c s) :=
  if_neg h

/-! ### Immediate destinations (R212) -/

/-- Where both sources resolve, an immediate destination is the first check of an F3 instruction to fail (R114). -/
theorem firstFault_immediate_dest {s : State} {a b : Operand} (ha : sourceFault s a = none) (hb : sourceFault s b = none)
    (raw : Word) :
    firstFault [sourceFault s a, sourceFault s b, destFault s ⟨.immediate, raw⟩] = some .badDestinationMode := by
  rw [ha, hb]
  rfl

/-! ### The claims -/

/-- Settles O28: every call keeps the latch, and on a faulted core a step, and so the first step of a run, returns the cause. -/
theorem faultsAreSticky : Obligations.FaultsAreSticky := by
  intro c calls s f hf t
  have ht : t.fault = some f :=
    hostCalls_induction (P := fun u => u.fault = some f) (fun k _ => hostCall_fault_of_latched k) calls hf
  have e : stepReply c t = ⟨t, .faulted f⟩ := stepReply_of_latched c ht
  have hrun : runFuel c 1 t = some (stepReply c t) := runFuel_succ_of_not_advanced (by simp [e]) 0
  exact ⟨ht, e, hrun.trans (congrArg some e)⟩

/-- Settles O26: the destination's mode is the only check of `in`, and the first to fail of an F3 instruction whose sources
resolve. -/
theorem immediateDestinationsFault : Obligations.ImmediateDestinationsFault := by
  intro a b raw s
  refine ⟨faults_of_instrFault rfl, fun ha hb => ?_⟩
  have first := firstFault_immediate_dest ha hb raw
  exact ⟨faults_of_instrFault first, faults_of_instrFault first, faults_of_instrFault first, faults_of_instrFault first⟩

/-- Settles O27: the reply is that of raising the fault, whose one effect is on the latch. -/
theorem faultsArePrecise : Obligations.FaultsArePrecise :=
  fun _ _ _ h => congrArg Reply.state (stepReply_eq_raise h)

end Sys2Proof.Machine

/-!
Reset, load and run (70_reset_and_hazards.md): what a load makes, how the text of an image is read, in what state a run ends, and the
proofs of the claims about them.
-/

namespace Sys2Proof.Machine

/-! ### Load (R250, R253) -/

/-- An image that fits the capacity is loaded (R250). -/
theorem load_of_fits {c : Config} {program : List Word} (h : program.length ≤ c.memCap) (inputs : List Word) :
    load c program inputs =
      .ok { pc := 0, rb := 0, mem := imageMemory program, inq := inputs, outq := [], fault := none } :=
  if_neg h.not_gt

/-- An image beyond the capacity is not loaded (R253). -/
theorem load_of_too_long {c : Config} {program : List Word} (h : c.memCap < program.length) (inputs : List Word) :
    load c program inputs = .error .imageTooLong :=
  if_pos h

/-! ### Reading tokens (R252, D28) -/

/-- The tokens of a text give no image exactly if one of them is malformed. -/
theorem wordTokens_eq_none_iff {ts : List (List Char)} : wordTokens ts = none ↔ ∃ t ∈ ts, wordToken t = none := by
  induction ts with
  | nil => simp [wordTokens]
  | cons t ts ih =>
    rw [List.exists_mem_cons_iff, ← ih, wordTokens]
    cases wordToken t <;> cases wordTokens ts <;> simp

/-- A text with a malformed token is a load error (R253). -/
theorem loadText_of_malformed {text : List Char}
    (h : ∃ t ∈ splitCommas (text.filter (fun ch => ch ≠ '\n' ∧ ch ≠ '\r')), wordToken t = none)
    (c : Config) (inputs : List Word) : loadText c text inputs = .error .malformedToken := by
  rw [loadText, parseImage, wordTokens_eq_none_iff.mpr h]

/-- One or more characters are a number if their digits have a value. -/
theorem natToken_of_ne_nil {ds : List Char} (h : ds ≠ []) : natToken ds = digitsValue 0 ds := by
  cases ds with
  | nil => exact absurd rfl h
  | cons ch ds => rfl

/-- A minus sign negates the number after it. -/
theorem intToken_minus {ds : List Char} {n : Nat} (h : natToken ds = some n) : intToken ('-' :: ds) = some (-(n : Int)) := by
  rw [intToken, h]

/-- A token without a minus sign is a number. -/
theorem intToken_of_no_minus {ds : List Char} {n : Nat} (hminus : '-' ∉ ds) (h : natToken ds = some n) :
    intToken ds = some (n : Int) := by
  unfold intToken
  split
  next => simp at hminus
  next => rw [h]

/-- A token whose integer is that of a word is read as this word. -/
theorem wordToken_of_toInt {t : List Char} {w : Word} (h : intToken t = some w.toInt) : wordToken t = some w := by
  have hrange : -(2 ^ 63) ≤ w.toInt ∧ w.toInt < 2 ^ 63 := ⟨BitVec.le_toInt w, BitVec.toInt_lt⟩
  simp only [wordToken, h, if_pos hrange, BitVec.ofInt_toInt]

/-! ### Writing numbers and words (R252, R15) -/

/-- A decimal digit, as the loader reads it. -/
abbrev IsDigit (ch : Char) : Prop := (digitValue ch).isSome

/-- Where `fuel` suffices for the digits of a number, reading them and then `acc` is reading `acc` with the number before it. -/
theorem digitsValue_decimalDigits {fuel n : Nat} (h : n < 10 ^ fuel) (acc : List Char) :
    digitsValue 0 (decimalDigits fuel n acc) = digitsValue n acc := by
  induction fuel generalizing n acc with
  | zero =>
    obtain rfl : n = 0 := by simpa using h
    rfl
  | succ fuel ih =>
    have hd : digitValue (Char.ofNat ('0'.toNat + n % 10)) = some (n % 10) := digitValue_digit _ (Nat.mod_lt _ (by omega))
    have last (k : Nat) : digitsValue k (Char.ofNat ('0'.toNat + n % 10) :: acc) = digitsValue (k * 10 + n % 10) acc := by
      rw [digitsValue, hd]
    have hn : n / 10 * 10 + n % 10 = n := Nat.div_add_mod' n 10
    rw [decimalDigits]
    split
    next h0 => rw [last, ← h0, hn]
    next => rw [ih (by rw [pow_succ] at h; omega), last, hn]

/-- What is written before `acc` is digits. -/
theorem decimalDigits_eq_append (fuel n : Nat) (acc : List Char) :
    ∃ ds, decimalDigits fuel n acc = ds ++ acc ∧ ∀ ch ∈ ds, IsDigit ch := by
  induction fuel generalizing n acc with
  | zero => exact ⟨[], rfl, by simp⟩
  | succ fuel ih =>
    have hd : IsDigit (Char.ofNat ('0'.toNat + n % 10)) := by
      rw [IsDigit, digitValue_digit _ (Nat.mod_lt _ (by omega))]
      rfl
    rw [decimalDigits]
    split
    next => exact ⟨[_], rfl, by simpa using hd⟩
    next =>
      obtain ⟨ds, e, hds⟩ := ih (n / 10) (Char.ofNat ('0'.toNat + n % 10) :: acc)
      exact ⟨ds ++ [_], by rw [e, List.append_cons], by simpa [or_imp, forall_and] using ⟨hds, hd⟩⟩

theorem natText_digits (n : Nat) : ∀ ch ∈ natText n, IsDigit ch := by
  obtain ⟨ds, e, hds⟩ := decimalDigits_eq_append 20 n []
  rwa [natText, e, List.append_nil]

theorem natText_ne_nil (n : Nat) : natText n ≠ [] := by
  rw [natText, decimalDigits]
  split
  next => simp
  next =>
    obtain ⟨ds, e, -⟩ := decimalDigits_eq_append 19 (n / 10) [Char.ofNat ('0'.toNat + n % 10)]
    rw [e]
    simp

/-- A number written in decimal is read back. -/
theorem natToken_natText {n : Nat} (h : n < 10 ^ 20) : natToken (natText n) = some n :=
  (natToken_of_ne_nil (natText_ne_nil n)).trans (digitsValue_decimalDigits h [])

/-- A word written in decimal is read back. -/
theorem wordToken_wordText (w : Word) : wordToken (wordText w) = some w := by
  have hnat : natToken (natText w.toInt.natAbs) = some w.toInt.natAbs := by
    have hlo := BitVec.le_toInt w
    have hhi := BitVec.toInt_lt (x := w)
    exact natToken_natText (by omega)
  apply wordToken_of_toInt
  unfold wordText
  split
  next hneg => rw [intToken_minus hnat, Int.ofNat_natAbs_of_nonpos hneg.le, neg_neg]
  next hpos =>
    have hminus : '-' ∉ natText w.toInt.natAbs := fun hm => absurd (natText_digits _ _ hm) (by decide)
    rw [intToken_of_no_minus hminus hnat, Int.natAbs_of_nonneg (not_lt.mp hpos)]

/-! ### Writing an image (R252) -/

/-- The text of a word is made of digits and perhaps a minus sign. -/
theorem wordText_chars (w : Word) : ∀ ch ∈ wordText w, ch = '-' ∨ IsDigit ch := by
  have hdigits := natText_digits w.toInt.natAbs
  unfold wordText
  split
  next => exact List.forall_mem_cons.mpr ⟨.inl rfl, fun ch hch => .inr (hdigits ch hch)⟩
  next => exact fun ch hch => .inr (hdigits ch hch)

/-- A word with further words after it is followed by a comma. -/
theorem imageText_cons (w : Word) {ws : List Word} (h : ws ≠ []) :
    imageText (w :: ws) = wordText w ++ ',' :: imageText ws := by
  cases ws with
  | nil => exact absurd rfl h
  | cons v vs => rfl

/-- The text of an image adds commas. -/
theorem imageText_chars (ws : List Word) : ∀ ch ∈ imageText ws, ch = ',' ∨ ch = '-' ∨ IsDigit ch := by
  induction ws using imageText.induct with
  | case1 => simp [imageText]
  | case2 w => exact fun ch hch => .inr (wordText_chars w ch hch)
  | case3 w ws hne ih =>
    rw [imageText_cons w hne, List.forall_mem_append, List.forall_mem_cons]
    exact ⟨fun ch hch => .inr (wordText_chars w ch hch), .inl rfl, ih⟩

/-- Splitting the text of an image at its commas gives the texts of its words. -/
theorem splitCommas_imageText {ws : List Word} (h : ws ≠ []) : splitCommas (imageText ws) = ws.map wordText := by
  have hcomma (w : Word) : ∀ ch ∈ wordText w, ch ≠ ',' := by
    rintro ch hch rfl
    exact absurd (wordText_chars w _ hch) (by decide)
  induction ws using imageText.induct with
  | case1 => exact absurd rfl h
  | case2 w => exact splitCommas_of_no_comma _ (hcomma w)
  | case3 w ws hne ih => rw [imageText_cons w hne, splitCommas_append _ _ (hcomma w), ih hne, List.map_cons]

/-- Removing line ends changes nothing in the text of an image. -/
theorem filter_imageText (ws : List Word) :
    (imageText ws).filter (fun ch => ch ≠ '\n' ∧ ch ≠ '\r') = imageText ws := by
  refine List.filter_eq_self.mpr fun ch hch => decide_eq_true ⟨?_, ?_⟩ <;> rintro rfl <;>
    exact absurd (imageText_chars ws _ hch) (by decide)

theorem wordTokens_map_wordText (ws : List Word) : wordTokens (ws.map wordText) = some ws := by
  induction ws with
  | nil => rfl
  | cons w ws ih => rw [List.map_cons, wordTokens, wordToken_wordText, ih]

/-! ### The end of a run (R181, R262) -/

/-- A run returns the reply of its last step, which is not Advanced, from a state that has every property steps keep. -/
theorem runFuel_last_step {c : Config} {P : State → Prop} (hstep : ∀ t, P t → P (stepReply c t).state) {n : Nat} {s : State}
    {r : Reply} (h : P s) (hr : runFuel c n s = some r) : ∃ t, P t ∧ stepReply c t = r ∧ r.result ≠ .advanced := by
  induction n generalizing s with
  | zero => simp [runFuel] at hr
  | succ n ih =>
    rw [runFuel] at hr
    split at hr
    next => exact ih (hstep s h) hr
    next hlast =>
      obtain rfl := Option.some.inj hr
      exact ⟨s, h, rfl, hlast⟩

/-- A step that returns Halted leaves a terminated core with the latch clear: `hlt` sets `pc` to the sentinel, which is not inside any
memory of the invariant. -/
theorem stepReply_state_of_halted {s : State} (h : s.Inv) (hr : (stepReply hardware s).result = .halted) :
    (stepReply hardware s).state.fault = none ∧
    (stepReply hardware s).state.mem.len ≤ (stepReply hardware s).state.pc.toNat := by
  obtain ⟨hf, hend | hhlt⟩ := (stepReply_halted_iff hardware s).mp hr
  · rw [stepReply_of_terminated hardware hf hend]
    exact ⟨hf, hend⟩
  · obtain ⟨⟨-, -, hlen⟩, -⟩ := h
    rw [stepReply_of_execute hardware hhlt]
    exact ⟨hf, hlen⟩

/-- A step that returns Paused leaves a Ready core that awaits input with the queue empty. -/
theorem stepReply_state_of_paused_awaits {c : Config} {s : State} (hr : (stepReply c s).result = .paused) :
    (stepReply c s).state.fault = none ∧ (stepReply c s).state.pc.toNat < (stepReply c s).state.mem.len ∧
    (stepReply c s).state.awaitingInput c = true ∧ (stepReply c s).state.inq = [] := by
  have hwait := (stepReply_paused_iff c s).mp hr
  obtain ⟨d, p, hd, -, hq⟩ := id hwait
  obtain ⟨hf, hin, -⟩ := nextAction_execute.mp hd
  rw [stepReply_state_of_paused hr]
  exact ⟨hf, hin, (s.awaitingInput_iff c).mpr hwait, hq⟩

/-! ### The claims -/

/-- Settles O43: the image fits, and reading the memory made of it gives its words. -/
theorem loadBuildsTheInitialState : Obligations.LoadBuildsTheInitialState := by
  intro c program inputs h
  refine ⟨_, load_of_fits h inputs, fun k w hk => ?_, imageMemory_len program, rfl, rfl, rfl, rfl, rfl⟩
  rw [imageMemory_read, List.getD_eq_getElem?_getD, hk, Option.getD_some]

/-- Settles O45: one malformed token is enough, and the empty text is one token with no digit. -/
theorem badImagesAreLoadErrors : Obligations.BadImagesAreLoadErrors :=
  fun c inputs => ⟨fun _ h => loadText_of_malformed h c inputs,
    loadText_of_malformed ⟨[], by simp [splitCommas], rfl⟩ c inputs, fun _ h => load_of_too_long h inputs⟩

/-- Settles O46: the tokens of the text are the texts of the words, each of which is read back. -/
theorem imageTextReadsBack : Obligations.ImageTextReadsBack := by
  intro ws h
  rw [parseImage, filter_imageText, splitCommas_imageText h, wordTokens_map_wordText]

/-- Settles O48: the steps of the run keep the invariant, and the last one's result says which rest state it leaves. -/
theorem runsEndHaltedPausedOrFaulted : Obligations.RunsEndHaltedPausedOrFaulted := by
  rintro s r h ⟨n, hn⟩
  obtain ⟨t, ht, rfl, hlast⟩ := runFuel_last_step (fun _ => stepReply_inv) h hn
  cases hr : (stepReply hardware t).result with
  | advanced => exact absurd hr hlast
  | halted => exact .inl ⟨rfl, stepReply_state_of_halted ht hr⟩
  | paused => exact .inr (.inl ⟨rfl, stepReply_state_of_paused_awaits hr⟩)
  | faulted f => exact .inr (.inr ⟨f, rfl, (stepReply_faulted_iff_latched hardware t f).mp hr⟩)

/-- Settles O42: the empty image fits and makes no word of memory, so the first step finds the core terminated. -/
theorem powerUpIsTheEmptyLoad : Obligations.PowerUpIsTheEmptyLoad := by
  have hload : load hardware [] [] = .ok State.reset := load_of_fits (Nat.zero_le _) []
  have hstep : stepReply hardware State.reset = ⟨State.reset, .halted⟩ :=
    stepReply_of_terminated hardware rfl (Nat.zero_le _)
  exact ⟨hload, rfl, rfl, rfl, rfl, rfl, rfl, rfl, step_of_stepReply hstep, hstep⟩

/-- Settles O52: power-up is a load. -/
theorem powerUpMeetsTheInvariant : Obligations.PowerUpMeetsTheInvariant :=
  load_inv (program := []) (load_of_fits (Nat.zero_le _) [])

end Sys2Proof.Machine

/-!
Arithmetic overflow (93_implementation_defined.md U1): what add, mul and arb do in a configuration that takes U1's alternative.
-/

namespace Sys2Proof.Machine

/-- With ALU_OVERFLOW = fault a result outside I64 is ArithmeticOverflow (U1). -/
theorem aluResult_of_overflow {c : Config} {z : Int} (hc : c.aluOverflow = .fault) (hz : ¬ InI64 z) :
    aluResult c z = .error .arithmeticOverflow := by
  simp only [aluResult, hc, if_neg hz]

/-- Where the capacity does not bind, a destination that raises no fault of this hardware resolves to its address (R113). -/
theorem writeAddr_of_capacity {c : Config} {s : State} {o : Operand} (hcap : 2 ^ 63 ≤ c.memCap) (h : destFault s o = none) :
    writeAddr c s o = .ok (operandAddress s o) := by
  rw [writeAddr_of_destFault_eq_none c h, if_neg ((operandAddress_lt h).trans_le hcap).not_ge]

/-- An F3 body whose parameters resolve raises the fault of its computation (R114). -/
theorem storeResult_of_compute_error {c : Config} {g : Word → Word → Except Fault Word} {a b d : Operand} {s : State} {f : Fault}
    (hcap : 2 ^ 63 ≤ c.memCap) (h : F3Resolves s a b d) (hg : g (sourceValue s a) (sourceValue s b) = .error f) :
    storeResult c g a b d s = raise s f := by
  obtain ⟨ha, hb, hd⟩ := h
  simp only [storeResult, readParam_eq, ha, hb, writeAddr_of_capacity hcap hd, bind, Except.bind, hg, conclude_error]

/-- `arb` whose operand resolves raises the fault of its sum (R170). -/
theorem arbReply_of_alu_error {c : Config} {a : Operand} {s : State} {f : Fault} (h : sourceFault s a = none)
    (hf : aluResult c (s.rb.toInt + (sourceValue s a).toInt) = .error f) : arbReply c a s = raise s f := by
  simp only [arbReply, readParam_eq, h, bind, Except.bind, hf, conclude_error]

/-- Settles O29: the parameters resolve, so the result's check is the one that fails, and raising it changes the latch alone. -/
theorem overflowFaultsWhenConfigured : Obligations.OverflowFaultsWhenConfigured :=
  fun _ _ hc hcap => ⟨fun _ _ _ h hz => storeResult_of_compute_error hcap h (aluResult_of_overflow hc hz),
    fun _ _ _ h hz => storeResult_of_compute_error hcap h (aluResult_of_overflow hc hz),
    fun _ h hz => arbReply_of_alu_error h (aluResult_of_overflow hc hz)⟩

end Sys2Proof.Machine
